-- ==== Sys2Proof/Word.lean ====
section
/-! DEFINITION. The word types of the core: the byte of 00_scope.md R9, the 32-bit channel word of 30_encoding.md R70,
and the byte sequences of 20_memory.md R51. Inside the core a multi-byte datum is a sequence of bytes and is never read
as a number, so these are vectors of bytes; only a channel word is a bit vector of more than a byte. -/

namespace Sys2Proof

/-- An unsigned 8-bit value (00_scope.md R9). -/
abbrev Byte := BitVec 8

/-- One word of the command or response channel (00_scope.md R8, `WORD_BITS`; 30_encoding.md R70). -/
abbrev Word32 := BitVec 32

/-- A word of the key schedule: a sequence of 4 bytes (00_scope.md R10, 20_memory.md R51). -/
abbrev KWord := Vector Byte 4

/-- 16 bytes: State, Scratch, a round key, a key or an IV (00_scope.md R8, `BLOCK_BYTES`). Byte `r + 4c` is the matrix
element of row r, column c (10_state.md R26). -/
abbrev Block := Vector Byte 16

/-- The round-key file: 44 words (00_scope.md R8, `NUM_W`; 10_state.md R23). -/
abbrev KeyWords := Vector KWord 44

/-- XOR of two key-schedule words, byte by byte (40_gf_sbox.md R108). -/
def KWord.xor (a b : KWord) : KWord := Vector.ofFn fun i : Fin 4 => a[i] ^^^ b[i]

/-- XOR of two blocks, byte by byte (40_gf_sbox.md R108). -/
def Block.xor (a b : Block) : Block := Vector.ofFn fun i : Fin 16 => a[i] ^^^ b[i]

end Sys2Proof
end

