-- ==== Sys2Proof/Config.lean ====
section
/-! DEFINITION. What an implementation fixes and what the spec leaves open (00_scope.md R8; 93_implementation_defined.md
U9 to U12). The fixed parameters are numbers; an open value is a constant without a body, so no proof can see it. -/

namespace Sys2Proof

/-- `POS_MAX`, the largest value of `position`, and `BLOCK_BYTES`, the bytes of a block (00_scope.md R8). -/
abbrev Config.blockBytes : Nat := 16

/-- `Nk`, the key length in 4-byte words; the only value of this hardware (00_scope.md R8; 92_eei_decisions.md D16). -/
abbrev Config.nk : Nat := 4

/-- `Nr`, the number of rounds; the only value of this hardware (00_scope.md R8; 92_eei_decisions.md D16). -/
abbrev Config.nr : Nat := 10

/-- `NUM_W = Nb * (Nr + 1)`, the words of the key schedule (00_scope.md R8). -/
abbrev Config.numW : Nat := 44

/-- `BUF_SIZE - 1` of the machine `State.reset` starts, OPEN in 00_scope.md R8 and 92_eei_decisions.md D9: any 32-bit
value, so that `BUF_SIZE` is any of 1..2^32. DESIGN CHOICE (log 4), safe. -/
opaque Config.bufTop : BitVec 32

/-- `W` after reset number `k`: unspecified (10_state.md R37; 93_implementation_defined.md U9). DESIGN CHOICE (log 1),
safe. -/
opaque Config.resetW : (k : Nat) → KeyWords

/-- `ST` after reset number `k`: unspecified (10_state.md R37; 93_implementation_defined.md U9). DESIGN CHOICE (log 1),
safe. -/
opaque Config.resetSt : (k : Nat) → Block

/-- `SCR` after reset number `k`: unspecified (10_state.md R37; 93_implementation_defined.md U10). DESIGN CHOICE
(log 1), safe. -/
opaque Config.resetScr : (k : Nat) → Block

/-- `POS` after reset number `k`: unspecified within its legal values 0..16 (10_state.md R28, R37;
93_implementation_defined.md U9, U17). DESIGN CHOICE (log 1), safe. -/
opaque Config.resetPos : (k : Nat) → Fin 17

end Sys2Proof
end

