-- ==== Sys2Proof/Syntax.lean ====
section
/-! DEFINITION. The instructions: the four host commands of 30_encoding.md R73 (spec/opcode_table.json), each with the
operands of R74 to R76. A reserved header is no instruction (R80, R81): the decoder rejects it by name. -/

namespace Sys2Proof

/-- One constructor per row of the opcode table. -/
inductive Instr where
  /-- `SET_KEY KEY`: 16 key bytes, byte 0 first (43_commands.md R162; 30_encoding.md R74). -/
  | setKey (key : Block)
  /-- `SET_IV IV`: 16 IV bytes, byte 0 first (43_commands.md R163; 30_encoding.md R74). -/
  | setIv (iv : Block)
  /-- `NEXT_CHUNK N`: N unsigned 32-bit (43_commands.md R164; 30_encoding.md R75). -/
  | nextChunk (n : Word32)
  /-- `APPLY ADDR, LEN`: both unsigned 32-bit (43_commands.md R165; 30_encoding.md R76). -/
  | apply (addr len : Word32)
  deriving DecidableEq, Repr

end Sys2Proof
end

