-- ==== Sys2Proof/Machine/State.lean ====
section
/-! DEFINITION. The state of the core and of what it steps with (10_state.md R20, R35, R39), the reasons a step stops,
and the state after reset (10_state.md R37; 70_reset_and_hazards.md R220). Plain data. -/

namespace Sys2Proof.Machine

/-- The spec's fault causes (60_exceptions.md R201). Taking one is a NEXT state, not an `Outcome.fault`: the core latches
it, responds, and halts (R200, R209). -/
inductive FaultCause where
  /-- A header whose OP is 0 or 5..15 (60_exceptions.md R202). -/
  | illegalOpcode
  /-- A legal OP with header bits 31..4 not all 0 (60_exceptions.md R203). -/
  | reservedBits
  /-- Keystream use while `KV = 0` (60_exceptions.md R204). -/
  | keyNotSet
  /-- Keystream use while `KV = 1` and `SV = 0` (60_exceptions.md R205). -/
  | ivNotSet
  /-- An `APPLY` range not inside BUF (60_exceptions.md R206). -/
  | bufferRange
  deriving DecidableEq, Repr

/-- Why a step has no next state. -/
inductive Fault where
  /-- Raised by `step` alone, when CMD does not hold a whole command and no reset is pending: the core waits and the
  model has no step (93_implementation_defined.md U20; 70_reset_and_hazards.md R234). Safe (log 7). -/
  | awaitingCommand
  deriving DecidableEq, Repr

/-- Why a step has no meaning. -/
inductive Refusal where
  /-- Raised by an arm of `exec` whose instruction has no meaning yet; no arm raises it now. Safe. -/
  | notModelled (mnemonic : String)
  deriving DecidableEq, Repr

/-- The buffer space BUF as (address, byte) cells in canonical form: addresses strictly rising, no cell equal to what an
unlisted address reads as (`Memory.background`; `Memory.wf` states the form). -/
abbrev Memory := List Host.Cell

/-- What an address not listed reads as. The spec gives BUF no contents (93_implementation_defined.md U11).
DESIGN CHOICE (log 5), unsafe. -/
def Memory.background : Byte := 0x00#8

/-- The machine: the core's registers (10_state.md R20), BUF (R35), the channels (R39) and the RST port
(30_encoding.md R70). -/
structure State where
  /-- `W`, the round-key file: 44 words of 4 bytes (10_state.md R23). -/
  w : KeyWords
  /-- `ST`, the 16-byte State (10_state.md R25, R26). -/
  st : Block
  /-- `SCR`, the 16-byte Scratch (10_state.md R27). -/
  scr : Block
  /-- `POS`, legal values 0..16 (10_state.md R28; 93_implementation_defined.md U17). -/
  pos : Fin 17
  /-- `KV`: the round-key file holds an expansion of some key (10_state.md R29). -/
  kv : Bool
  /-- `SV`: State holds an IV or a cipher output (10_state.md R29). -/
  sv : Bool
  /-- `FLT`: a fault has been latched (10_state.md R29). -/
  flt : Bool
  /-- `CAUSE`: the code of the latched fault (10_state.md R30). -/
  cause : BitVec 4
  /-- `BUF_SIZE - 1`, the highest address of BUF: the OPEN parameter of this machine, which no step changes
  (00_scope.md R8; 20_memory.md R50). -/
  bufTop : BitVec 32
  /-- The contents of BUF (10_state.md R35). -/
  buf : Memory
  /-- CMD: the unread suffix of the command sequence (10_state.md R39). -/
  cmd : List Word32
  /-- RSP: the emitted prefix of the response sequence (10_state.md R39); reading does not remove words (log 8). -/
  rsp : List Word32
  /-- RST: `some m` when a reset is pending, which lands when the command it cuts off, if that is an `APPLY`, has
  written `m` bytes (70_reset_and_hazards.md R220; 93_implementation_defined.md U21; log 6). -/
  rst : Option Nat
  /-- The model's own count of resets taken, which indexes the free values of `Config` (log 1). -/
  resets : Nat
  deriving DecidableEq, Repr

/-- The machine right after reset number `k`, with the BUF size and contents given (10_state.md R37): the flags and
`CAUSE` 0, the channels empty, `W`, `ST`, `SCR` and `POS` unspecified. -/
def State.resetWith (bufTop : BitVec 32) (buf : Memory) (k : Nat) : State where
  w := Config.resetW k
  st := Config.resetSt k
  scr := Config.resetScr k
  pos := Config.resetPos k
  kv := false
  sv := false
  flt := false
  cause := 0#4
  bufTop := bufTop
  buf := buf
  cmd := []
  rsp := []
  rst := none
  resets := k

/-- The machine right after its first reset, with nothing listed in BUF. -/
def State.reset : State := State.resetWith Config.bufTop [] 0

end Sys2Proof.Machine
end

