-- ==== Sys2Proof/Machine/Flags.lean ====
section
/-! DEFINITION. What a command reads from the flags and its operands before it acts: the fault checks and their order
(60_exceptions.md R201, R204 to R207). No flag is a condition code and no command computes one from data
(10_state.md R29). -/

namespace Sys2Proof.Machine

/-- The 4-bit code of a cause (60_exceptions.md R201). -/
def FaultCause.code : FaultCause → BitVec 4
  | .illegalOpcode => 1#4
  | .reservedBits => 2#4
  | .keyNotSet => 3#4
  | .ivNotSet => 4#4
  | .bufferRange => 5#4

/-- `BUF_SIZE`, one of 1..2^32 (00_scope.md R8). -/
def State.bufSize (s : State) : Nat := s.bufTop.toNat + 1

/-- The check of keystream use: `KEY_NOT_SET` before `IV_NOT_SET` (60_exceptions.md R207, items 5 and 6). -/
def contextFault (s : State) : Option FaultCause :=
  if s.kv then (if s.sv then none else some .ivNotSet) else some .keyNotSet

/-- The checks of `APPLY` (60_exceptions.md R207, items 4 to 7): LEN = 0 passes with none made; the range check takes
the exact sum (30_encoding.md R83). -/
def applyFault (addr len : Word32) (s : State) : Option FaultCause :=
  if len = 0#32 then none
  else
    match contextFault s with
    | some c => some c
    | none => if s.bufSize < addr.toNat + len.toNat then some .bufferRange else none

end Sys2Proof.Machine
end

