-- ==== Sys2Proof/WellFormed.lean ====
section
/-! DEFINITION. Well-formed instructions. The spec makes the only ill-formed operand, a key or IV that is not 16 bytes
long, impossible to express (30_encoding.md R74: "prevented structurally"; 93_implementation_defined.md U1, U2), and no
payload bit is reserved (30_encoding.md R74 to R76, R80). The operand types of `Instr` carry exactly that, so there is
no further check and every `Instr` is well-formed (log 13). -/

namespace Sys2Proof

/-- Every operand value is encodable (30_encoding.md R74, R75, R76), so no constructor has a check. -/
def Instr.wellFormed : Instr → Bool
  | .setKey _ => true
  | .setIv _ => true
  | .nextChunk _ => true
  | .apply _ _ => true

end Sys2Proof
end

