-- ==== Sys2Proof/Decode.lean ====
section
/-! DEFINITION. Framing, decoding and encoding of commands (30_encoding.md R71 to R76, R80 to R83), and the byte
packing of the channels (20_memory.md R53). Decoding is total on any sequence of channel words and rejects by name. -/

namespace Sys2Proof

/-- Why a sequence of channel words is no command of the opcode table. -/
inductive DecodeError where
  /-- The words of the command have not all arrived (30_encoding.md R71; 93_implementation_defined.md U20). -/
  | incomplete
  /-- OP is 0 or 5..15 (30_encoding.md R80). -/
  | illegalOpcode
  /-- OP is legal and header bits 31..4 are not all 0 (30_encoding.md R80). -/
  | reservedBits
  deriving DecidableEq, Repr

/-! ## The header -/

/-- The OP field, header bits 3..0 (30_encoding.md R72). -/
def opcode (h : Word32) : BitVec 4 := h.extractLsb' 0 4

/-- The RSVD field, header bits 31..4 (30_encoding.md R72). -/
def reservedField (h : Word32) : BitVec 28 := h.extractLsb' 4 28

/-- OP is one of 1..4 (30_encoding.md R73). -/
def legalOpcode (op : BitVec 4) : Bool := op = 1#4 || op = 2#4 || op = 3#4 || op = 4#4

/-- `P(OP)`, the payload words of the opcode map (30_encoding.md R73); 0 for a reserved OP (R71). -/
def payloadWords (op : BitVec 4) : Nat :=
  if op = 1#4 then 4
  else if op = 2#4 then 4
  else if op = 3#4 then 1
  else if op = 4#4 then 2
  else 0

/-! ## Byte packing on the channels (20_memory.md R53) -/

/-- Byte k of a channel word: bits `[8k+7 : 8k]`. -/
def wordByte (w : Word32) (k : Nat) : Byte := w.extractLsb' (8 * k) 8

/-- The channel word whose byte k is the k-th argument: byte 0 in bits 7..0. -/
def packWord (b0 b1 b2 b3 : Byte) : Word32 :=
  b0.setWidth 32 ||| (b1.setWidth 32 <<< 8) ||| (b2.setWidth 32 <<< 16) ||| (b3.setWidth 32 <<< 24)

/-- Bytes into payload words, four to a word, the unused bytes of the last word 0 (30_encoding.md R74, R78). -/
def packBytes : List Byte → List Word32
  | [] => []
  | [b0] => [packWord b0 0#8 0#8 0#8]
  | [b0, b1] => [packWord b0 b1 0#8 0#8]
  | [b0, b1, b2] => [packWord b0 b1 b2 0#8]
  | b0 :: b1 :: b2 :: b3 :: rest => packWord b0 b1 b2 b3 :: packBytes rest

/-- Byte `4j + k` of a KEY or IV payload is byte k of payload word j (30_encoding.md R74). -/
def unpackBlock (w0 w1 w2 w3 : Word32) : Block :=
  #v[wordByte w0 0, wordByte w0 1, wordByte w0 2, wordByte w0 3,
     wordByte w1 0, wordByte w1 1, wordByte w1 2, wordByte w1 3,
     wordByte w2 0, wordByte w2 1, wordByte w2 2, wordByte w2 3,
     wordByte w3 0, wordByte w3 1, wordByte w3 2, wordByte w3 3]

/-- Payload word j of a KEY or IV (30_encoding.md R74). -/
def blockWord (b : Block) (j : Fin 4) : Word32 :=
  packWord b[4 * j.val] b[4 * j.val + 1] b[4 * j.val + 2] b[4 * j.val + 3]

/-- The 4 payload words of a KEY or IV (30_encoding.md R74). -/
def packBlock (b : Block) : List Word32 := [blockWord b 0, blockWord b 1, blockWord b 2, blockWord b 3]

/-! ## Framing and decoding -/

/-- Takes one whole command off the channel: the header, its `P(OP)` payload words, and the words after them
(30_encoding.md R71); none while its words have not all arrived. -/
def takeCommand : List Word32 → Option (Word32 × List Word32 × List Word32)
  | [] => none
  | h :: ws =>
    if payloadWords (opcode h) ≤ ws.length then
      some (h, ws.take (payloadWords (opcode h)), ws.drop (payloadWords (opcode h)))
    else none

/-- The command of a legal, unreserved header with its payload `p` (30_encoding.md R73 to R76, R83); a payload of any
other length than `P(OP)` is no command. -/
def decodePayload (op : BitVec 4) (p : List Word32) : Except DecodeError Instr :=
  if op = 1#4 then
    match p with
    | [w0, w1, w2, w3] => .ok (.setKey (unpackBlock w0 w1 w2 w3))
    | _ => .error .incomplete
  else if op = 2#4 then
    match p with
    | [w0, w1, w2, w3] => .ok (.setIv (unpackBlock w0 w1 w2 w3))
    | _ => .error .incomplete
  else if op = 3#4 then
    match p with
    | [n] => .ok (.nextChunk n)
    | _ => .error .incomplete
  else if op = 4#4 then
    match p with
    | [addr, len] => .ok (.apply addr len)
    | _ => .error .incomplete
  else .error .illegalOpcode

/-- The command of header `h` and payload `p`: the opcode is checked first, then the reserved bits
(30_encoding.md R80; 60_exceptions.md R207). -/
def decodeCommand (h : Word32) (p : List Word32) : Except DecodeError Instr :=
  if legalOpcode (opcode h) then
    if reservedField h = 0#28 then decodePayload (opcode h) p else .error .reservedBits
  else .error .illegalOpcode

/-- The first command of a sequence of channel words, and the words after it. -/
def decode (ws : List Word32) : Except DecodeError (Instr × List Word32) :=
  match takeCommand ws with
  | none => .error .incomplete
  | some (h, p, rest) =>
    match decodeCommand h p with
    | .ok i => .ok (i, rest)
    | .error e => .error e

/-! ## Encoding -/

/-- The words of a command: the header of 30_encoding.md R73, then the payload of R74 to R76. -/
def encode : Instr → List Word32
  | .setKey key => 0x00000001#32 :: packBlock key
  | .setIv iv => 0x00000002#32 :: packBlock iv
  | .nextChunk n => [0x00000003#32, n]
  | .apply addr len => [0x00000004#32, addr, len]

/-! ## The opcode table's numbering of an instruction's bits -/

/-- Channel word j of the bits `v`: bits `[32j+31 : 32j]`. -/
def bitsWord (v j : Nat) : Word32 := BitVec.ofNat 32 (v / 2 ^ (32 * j))

/-- The words of the command whose lowest `nbits` bits are `w` and whose further bits are 0: the header, then exactly
the payload words its OP gives (30_encoding.md R82). -/
def tableWords (nbits w : Nat) : List Word32 :=
  let v := w % 2 ^ nbits
  bitsWord v 0 :: (List.range (payloadWords (opcode (bitsWord v 0)))).map fun j => bitsWord v (j + 1)

/-- The instruction the decoder reads from bits numbered as spec/opcode_table.json numbers them. -/
def decodeTableWord (nbits w : Nat) : Option Instr :=
  match decode (tableWords nbits w) with
  | .ok (i, _) => some i
  | .error _ => none

end Sys2Proof
end

