-- ==== Sys2Proof/Machine/Operands.lean ====
section
/-! DEFINITION. The operand and response forms: the chunk of State a command hands out (43_commands.md R161) and the
fields of a response (30_encoding.md R77 to R79). The operands of a command come whole from the decoder (R83). -/

namespace Sys2Proof.Machine

/-- The values of the STATUS field that are produced (30_encoding.md R79). -/
inductive Status where
  | ok
  | fault
  | halted
  deriving DecidableEq, Repr

/-- The 2-bit code of a STATUS (30_encoding.md R79). -/
def Status.code : Status → BitVec 2
  | .ok => 0#2
  | .fault => 1#2
  | .halted => 2#2

/-- The response header `STATUS | CAUSE << 4 | LEN << 8 | OFF << 16` (30_encoding.md R77). -/
def responseHeader (status : Status) (cause : BitVec 4) (len : BitVec 5) (off : BitVec 4) : Word32 :=
  status.code.setWidth 32 ||| (cause.setWidth 32 <<< 4) ||| (len.setWidth 32 <<< 8) ||| (off.setWidth 32 <<< 16)

/-- The header of an OK response other than a chunk's: 0 (30_encoding.md R77). -/
def okHeader : Word32 := responseHeader .ok 0#4 0#5 0#4

/-- The chunk `ST[off .. off+len)` (43_commands.md R161). -/
def chunkBytes (st : Block) (off len : Nat) : List Byte := (st.toList.drop off).take len

/-- The response of a `NEXT_CHUNK` that completes: its header, then the chunk in `ceil(LEN / 4)` words
(30_encoding.md R77, R78). -/
def chunkResponse (st : Block) (off len : Nat) : List Word32 :=
  responseHeader .ok 0#4 (BitVec.ofNat 5 len) (BitVec.ofNat 4 off) :: packBytes (chunkBytes st off len)

end Sys2Proof.Machine
end

