-- ==== Sys2Proof/Machine/Field.lean ====
section
/-! DEFINITION. GF(2^8) arithmetic and the substitution box (40_gf_sbox.md R100 to R106). -/

namespace Sys2Proof.Machine

/-- `mul2(x)`: shift left one bit; reduce with 0x1B if bit 7 was set (40_gf_sbox.md R101). -/
def mul2 (x : Byte) : Byte :=
  if x.getLsbD 7 then (x <<< 1) ^^^ 0x1B#8 else x <<< 1

/-- `mul3(x) = x ^ mul2(x)` (40_gf_sbox.md R102). -/
def mul3 (x : Byte) : Byte := x ^^^ mul2 x

/-- `SBOX_TABLE` (40_gf_sbox.md R104): row `hx` as its 16 bytes, column 0 first. The values are supplied by the spec from
general knowledge (93_implementation_defined.md G1; log 12). -/
def sboxRows : Vector (BitVec 128) 16 := #v[
  0x637c777bf26b6fc53001672bfed7ab76#128,
  0xca82c97dfa5947f0add4a2af9ca472c0#128,
  0xb7fd9326363ff7cc34a5e5f171d83115#128,
  0x04c723c31896059a071280e2eb27b275#128,
  0x09832c1a1b6e5aa0523bd6b329e32f84#128,
  0x53d100ed20fcb15b6acbbe394a4c58cf#128,
  0xd0efaafb434d338545f9027f503c9fa8#128,
  0x51a3408f929d38f5bcb6da2110fff3d2#128,
  0xcd0c13ec5f974417c4a77e3d645d1973#128,
  0x60814fdc222a908846eeb814de5e0bdb#128,
  0xe0323a0a4906245cc2d3ac629195e479#128,
  0xe7c8376d8dd54ea96c56f4ea657aae08#128,
  0xba78252e1ca6b4c6e8dd741f4bbd8b8a#128,
  0x703eb5664803f60e613557b986c11d9e#128,
  0xe1f8981169d98e949b1e87e9ce5528df#128,
  0x8ca1890dbfe6426841992d0fb054bb16#128]

/-- `SBOX(x)`: row `x div 16`, column `x mod 16` of the table (40_gf_sbox.md R103, R104). -/
def sbox (x : Byte) : Byte :=
  (sboxRows[x.toNat / 16]'(by have := x.isLt; omega)).extractLsb' (8 * (15 - x.toNat % 16)) 8

end Sys2Proof.Machine
end

