-- ==== Sys2Proof/Machine/KeySchedule.lean ====
section
/-! DEFINITION. The round constant and the key schedule (41_key_schedule.md R120 to R126), Nk = 4. -/

namespace Sys2Proof.Machine

/-- One step of the round constant: double the 9-bit working value and reduce with 0x11B if bit 8 is set
(41_key_schedule.md R120). -/
def rconStep (c : BitVec 9) : BitVec 9 :=
  if (c <<< 1).getLsbD 8 then (c <<< 1) ^^^ 0x11B#9 else c <<< 1

/-- The working value after `n` steps from 1 (41_key_schedule.md R120). -/
def rconIter : Nat → BitVec 9
  | 0 => 0x001#9
  | n + 1 => rconStep (rconIter n)

/-- `rcon(a)`: `a - 1` doublings of 1, the low byte (41_key_schedule.md R120). The key expansion passes a = 1..10
only; outside them the loop goes on, DESIGN CHOICE (log 14), safe. -/
def rcon (a : Nat) : Byte := (rconIter (a - 1)).setWidth 8

/-- `RotWord`: the bytes rotated left by one position (41_key_schedule.md R122). -/
def rotWord (t : KWord) : KWord := #v[t[1], t[2], t[3], t[0]]

/-- `SubWord`: the S-box on every byte (41_key_schedule.md R123). -/
def subWord (t : KWord) : KWord := #v[sbox t[0], sbox t[1], sbox t[2], sbox t[3]]

/-- XOR a byte into byte 0 of a word (41_key_schedule.md R124, `temp[0] <- temp[0] ^ rcon(i div 4)`). -/
def xorFirst (t : KWord) (b : Byte) : KWord := #v[t[0] ^^^ b, t[1], t[2], t[3]]

/-- `temp` of word index i, from word i-1 (41_key_schedule.md R124). -/
def scheduleTemp (i : Nat) (prev : KWord) : KWord :=
  if i % 4 = 0 then xorFirst (subWord (rotWord prev)) (rcon (i / 4)) else prev

/-- The `n` words from index i on, given words i-4, i-3, i-2, i-1 (41_key_schedule.md R124). -/
def expandFrom : (n i : Nat) → (w4 w3 w2 w1 : KWord) → List KWord
  | 0, _, _, _, _, _ => []
  | n + 1, i, w4, w3, w2, w1 =>
    KWord.xor w4 (scheduleTemp i w1) :: expandFrom n (i + 1) w3 w2 w1 (KWord.xor w4 (scheduleTemp i w1))

theorem expandFrom_length (n i : Nat) (w4 w3 w2 w1 : KWord) : (expandFrom n i w4 w3 w2 w1).length = n := by
  induction n generalizing i w4 w3 w2 w1 with
  | zero => rfl
  | succ n ih => simp [expandFrom, ih]

/-- Word j of the key, j in 0..3: bytes 4j..4j+3 (41_key_schedule.md R124). -/
def keyWord (k : Block) (j : Fin 4) : KWord :=
  #v[k[4 * j.val], k[4 * j.val + 1], k[4 * j.val + 2], k[4 * j.val + 3]]

/-- The 44 words as a list: the 4 key words, then 40 expanded ones (41_key_schedule.md R124). -/
def keyWordList (k : Block) : List KWord :=
  keyWord k 0 :: keyWord k 1 :: keyWord k 2 :: keyWord k 3 ::
    expandFrom 40 4 (keyWord k 0) (keyWord k 1) (keyWord k 2) (keyWord k 3)

/-- `KeyExpansion(k)` (41_key_schedule.md R124). -/
def keyExpansion (k : Block) : KeyWords :=
  ⟨(keyWordList k).toArray, by simp [keyWordList, expandFrom_length]⟩

/-- Round key r: byte i is byte `i mod 4` of word `4r + i div 4` (10_state.md R24). -/
def roundKey (w : KeyWords) (r : Fin 11) : Block :=
  Vector.ofFn fun i : Fin 16 => (w[4 * r.val + i.val / 4])[i.val % 4]'(by omega)

end Sys2Proof.Machine
end

