-- ==== Sys2Proof/Machine/RoundTransform.lean ====
section
/-! DEFINITION. The round transform in its function form (42_round_transform.md R140 to R149): every round is a function
of the whole pre-round State and the round key (R147). The pass that moves State through Scratch is `cipherPass` in
Machine/Ops.lean. -/

namespace Sys2Proof.Machine

/-- `AddRoundKey`: byte i is `s[i] ^ RK[i]` (42_round_transform.md R140). -/
def addRoundKey (rk s : Block) : Block := Block.xor s rk

/-- `SrcIndex(r, c)`: row r of input column `(c + r) mod 4` (42_round_transform.md R141). -/
def srcIndex (r c : Fin 4) : Fin 16 := ⟨r.val + 4 * ((c.val + r.val) % 4), by omega⟩

/-- The substituted bytes of output column c, row 0 first (42_round_transform.md R142). -/
def subColumn (s : Block) (c : Fin 4) : KWord :=
  #v[sbox s[srcIndex 0 c], sbox s[srcIndex 1 c], sbox s[srcIndex 2 c], sbox s[srcIndex 3 c]]

/-- `MixColumn` (42_round_transform.md R143). -/
def mixColumn (x : KWord) : KWord :=
  #v[mul2 x[0] ^^^ mul3 x[1] ^^^ x[2] ^^^ x[3],
     x[0] ^^^ mul2 x[1] ^^^ mul3 x[2] ^^^ x[3],
     x[0] ^^^ x[1] ^^^ mul2 x[2] ^^^ mul3 x[3],
     mul3 x[0] ^^^ x[1] ^^^ x[2] ^^^ mul2 x[3]]

/-- The block whose column c is `col c`: byte `4c + r` is byte r of column c (10_state.md R26). -/
def ofColumns (col : Fin 4 → KWord) : Block :=
  Vector.ofFn fun i : Fin 16 => (col ⟨i.val / 4, by omega⟩)[i.val % 4]'(by omega)

/-- What a round 1..9 writes to Scratch (42_round_transform.md R144). -/
def fullRound (rk s : Block) : Block :=
  addRoundKey rk (ofColumns fun c => mixColumn (subColumn s c))

/-- What round 10 writes to Scratch (42_round_transform.md R145). -/
def finalRound (rk s : Block) : Block :=
  addRoundKey rk (ofColumns fun c => subColumn s c)

/-- State after rounds 1..n (42_round_transform.md R146), n at most 9. -/
def fullRounds (w : KeyWords) : Nat → Block → Block
  | 0, s => s
  | n + 1, s => fullRound (roundKey w (Fin.ofNat 11 (n + 1))) (fullRounds w n s)

/-- `Cipher(in, w)`: round 0, rounds 1..9, round 10 (42_round_transform.md R146). -/
def cipher (input : Block) (w : KeyWords) : Block :=
  finalRound (roundKey w 10) (fullRounds w 9 (addRoundKey (roundKey w 0) input))

end Sys2Proof.Machine
end

