-- ==== Sys2Proof/Machine/Ops.lean ====
section
/-! DEFINITION. The named operations every meaning is written with: memory, register writes, responding, taking a fault,
the halted answer, the keystream operations, and reset, the one way out of a fault. -/

namespace Sys2Proof.Machine

/-! ## BUF (20_memory.md R50, R56, R58) -/

/-- `MemRead(a, 1)`. -/
def Memory.read : Memory → Nat → Byte
  | [], _ => Memory.background
  | (b, x) :: m, a => if a = b then x else Memory.read m a

/-- `MemWrite(a, 1, v)`, keeping the canonical form. -/
def Memory.write : Memory → Nat → Byte → Memory
  | [], a, v => if v = Memory.background then [] else [(a, v)]
  | (b, x) :: m, a, v =>
    if a < b then (if v = Memory.background then (b, x) :: m else (a, v) :: (b, x) :: m)
    else if a = b then (if v = Memory.background then m else (a, v) :: m)
    else (b, x) :: Memory.write m a v

/-- The canonical form: addresses strictly rising, no cell equal to the background. -/
def Memory.wf : Memory → Bool
  | [] => true
  | (a, x) :: m => decide (x ≠ Memory.background) && m.all (fun c => decide (a < c.1)) && Memory.wf m

/-! ## Register and channel writes -/

/-- `W <- v`. -/
def State.setW (s : State) (v : KeyWords) : State := { s with w := v }
/-- `ST <- v`. -/
def State.setSt (s : State) (v : Block) : State := { s with st := v }
/-- `SCR <- v`. -/
def State.setScr (s : State) (v : Block) : State := { s with scr := v }
/-- `POS <- v`. -/
def State.setPos (s : State) (v : Fin 17) : State := { s with pos := v }
/-- `KV <- 1`; no command clears it (10_state.md R29). -/
def State.raiseKv (s : State) : State := { s with kv := true }
/-- `SV <- 1`; no command clears it (10_state.md R29). -/
def State.raiseSv (s : State) : State := { s with sv := true }
/-- `FLT <- 1`, `CAUSE <- c` (60_exceptions.md R200). -/
def State.latch (s : State) (c : FaultCause) : State := { s with flt := true, cause := c.code }
/-- BUF after writes. -/
def State.setBuf (s : State) (v : Memory) : State := { s with buf := v }
/-- CMD after words are taken from it. -/
def State.setCmd (s : State) (v : List Word32) : State := { s with cmd := v }
/-- `SendWord` of each word in order (00_scope.md R11). -/
def State.respond (s : State) (ws : List Word32) : State := { s with rsp := s.rsp ++ ws }

/-! ## Faults (60_exceptions.md) -/

/-- `raise Fault(c)`: latch `FLT` and `CAUSE`, respond FAULT, change nothing else (60_exceptions.md R200, R208). -/
def raiseFault (c : FaultCause) (s : State) : State :=
  (s.latch c).respond [responseHeader .fault c.code 0#5 0#4]

/-- The answer to a command while `FLT = 1`: HALTED with the latched cause, and nothing else changes
(60_exceptions.md R209). -/
def respondHalted (s : State) : State := s.respond [responseHeader .halted s.cause 0#5 0#4]

/-! ## The keystream (43_commands.md R160, R161; 42_round_transform.md R144 to R147) -/

/-- Round n in 1..9 on the registers: write all of `SCR` from `ST`, then copy it to `ST`
(42_round_transform.md R144). DEDUCED: `SCR` keeps this value between commands (log 3), unsafe. -/
def roundPass (n : Fin 11) (s : State) : State :=
  let s1 := s.setScr (fullRound (roundKey s.w n) s.st)
  s1.setSt s1.scr

/-- Round 10 on the registers, through `SCR` too (42_round_transform.md R145; 92_eei_decisions.md D17). -/
def finalPass (s : State) : State :=
  let s1 := s.setScr (finalRound (roundKey s.w 10) s.st)
  s1.setSt s1.scr

/-- Rounds 1..n in order (42_round_transform.md R149). -/
def roundPasses : Nat → State → State
  | 0, s => s
  | n + 1, s => roundPass (Fin.ofNat 11 (n + 1)) (roundPasses n s)

/-- One `Cipher` pass over the registers: round 0 in place, rounds 1..9, round 10
(42_round_transform.md R146, R149; 92_eei_decisions.md D30). -/
def cipherPass (s : State) : State :=
  finalPass (roundPasses 9 (s.setSt (addRoundKey (roundKey s.w 0) s.st)))

/-- `Advance()`, the OFB feedback step (43_commands.md R160). -/
def advance (s : State) : State := if 16 ≤ s.pos.val then (cipherPass s).setPos 0 else s

/-- The length of the chunk `TakeChunk(n)` hands out from position `pos`: `min(16 - POS, n)` (43_commands.md R161). -/
def chunkLen (pos : Fin 17) (n : Nat) : Nat := min (16 - pos.val) n

/-- `TakeChunk(n)`: its offset and length, and the state after it (43_commands.md R161). -/
def takeChunk (n : Nat) (s : State) : Nat × Nat × State :=
  let s1 := advance s
  (s1.pos.val, chunkLen s1.pos n,
    s1.setPos ⟨s1.pos.val + chunkLen s1.pos n, by have := s1.pos.isLt; unfold chunkLen; omega⟩)

/-- XOR the bytes `ks` into BUF from address a on, each byte read and then written, in rising order
(43_commands.md R165; 20_memory.md R61). -/
def xorBytes : List Byte → Nat → Memory → Memory
  | [], _, m => m
  | k :: ks, a, m => xorBytes ks (a + 1) (m.write a (m.read a ^^^ k))

/-- The chunk loop of `APPLY` (43_commands.md R165): `left` bytes still to do from address a on, in at most `passes`
passes. Every pass takes at least one byte, so `left` passes are enough. -/
def applyLoop : (passes a left : Nat) → State → State
  | 0, _, _, s => s
  | passes + 1, a, left, s =>
    if left = 0 then s
    else
      match takeChunk left s with
      | (off, len, s1) =>
        applyLoop passes (a + len) (left - len) (s1.setBuf (xorBytes (chunkBytes s1.st off len) a s1.buf))

/-- XOR the next `n` keystream bytes into BUF from address a on (43_commands.md R165). -/
def applyRange (a n : Nat) (s : State) : State := applyLoop n a n s

/-! ## Reset: the one way out of a fault (60_exceptions.md R210; 70_reset_and_hazards.md R220) -/

/-- BUF as a reset finds it: if the command on CMD is an `APPLY` that raises no fault, its first `m` bytes, at most
LEN, have been written; else BUF is untouched (70_reset_and_hazards.md R220; log 6). -/
def cutBuf (m : Nat) (s : State) : Memory :=
  if s.flt then s.buf
  else
    match decode s.cmd with
    | .ok (.apply addr len, _) =>
      match applyFault addr len s with
      | some _ => s.buf
      | none => (applyRange addr.toNat (min m len.toNat) s).buf
    | _ => s.buf

/-- RST: the partly done command is dropped without a response, the registers take their reset values, both channels
are empty, and BUF is left as it is (70_reset_and_hazards.md R220; 10_state.md R37). -/
def takeReset (m : Nat) (s : State) : State := State.resetWith s.bufTop (cutBuf m s) (s.resets + 1)

end Sys2Proof.Machine
end

