-- ==== Sys2Proof/Machine/Context.lean ====
section
/-! DEFINITION. The commands that set up the keystream context: `SET_KEY` and `SET_IV` (43_commands.md R162, R163). -/

namespace Sys2Proof.Machine

/-- `SET_KEY KEY` (43_commands.md R162). -/
def execSetKey (key : Block) (s : State) : Host.Outcome State Fault Refusal :=
  .next ((((s.setW (keyExpansion key)).raiseKv).setPos 16).respond [okHeader])

/-- `SET_IV IV` (43_commands.md R163). -/
def execSetIv (iv : Block) (s : State) : Host.Outcome State Fault Refusal :=
  .next ((((s.setSt iv).raiseSv).setPos 16).respond [okHeader])

end Sys2Proof.Machine
end

