-- ==== Sys2Proof/Machine/Stream.lean ====
section
/-! DEFINITION. The commands that use the keystream: `NEXT_CHUNK` and `APPLY` (43_commands.md R164, R165). A fault they
raise is taken: it is a next state (60_exceptions.md R200). -/

namespace Sys2Proof.Machine

/-- `NEXT_CHUNK N` (43_commands.md R164). -/
def execNextChunk (n : Word32) (s : State) : Host.Outcome State Fault Refusal :=
  match contextFault s with
  | some c => .next (raiseFault c s)
  | none =>
    match takeChunk n.toNat s with
    | (off, len, s1) => .next (s1.respond (chunkResponse s1.st off len))

/-- `APPLY ADDR, LEN` (43_commands.md R165). With LEN = 0 the loop does nothing. -/
def execApply (addr len : Word32) (s : State) : Host.Outcome State Fault Refusal :=
  match applyFault addr len s with
  | some c => .next (raiseFault c s)
  | none => .next ((applyRange addr.toNat len.toNat s).respond [okHeader])

end Sys2Proof.Machine
end

