-- ==== Sys2Proof/Machine/Dispatch.lean ====
section
/-! DEFINITION. The dispatch of a decoded command to its meaning, one arm per constructor of `Instr`
(43_commands.md R166, `case op of`). -/

namespace Sys2Proof.Machine

def exec (i : Instr) (s : State) : Host.Outcome State Fault Refusal :=
  match i with
  | .setKey key => Sys2Proof.Machine.execSetKey key s
  | .setIv iv => Sys2Proof.Machine.execSetIv iv s
  | .nextChunk n => Sys2Proof.Machine.execNextChunk n s
  | .apply addr len => Sys2Proof.Machine.execApply addr len s

end Sys2Proof.Machine
end

