-- ==== Sys2Proof/Machine/Cycle.lean ====
section
/-! DEFINITION. The command cycle (43_commands.md R166): one command is read whole, answered HALTED while `FLT = 1`,
rejected with the fault of its header, or executed. -/

namespace Sys2Proof.Machine

/-- What the core does with a command the decoder rejects (60_exceptions.md R202, R203); a command that is not whole has
no step (93_implementation_defined.md U20). -/
def rejectCommand (e : DecodeError) (s : State) : Host.Outcome State Fault Refusal :=
  match e with
  | .illegalOpcode => .next (raiseFault .illegalOpcode s)
  | .reservedBits => .next (raiseFault .reservedBits s)
  | .incomplete => .fault .awaitingCommand

/-- The checks and the execution of a command already read, header `h` and payload `p`, in the order of
60_exceptions.md R207. DESIGN CHOICE: they stand here and not in `exec` (log 9), safe. -/
def runCommand (h : Word32) (p : List Word32) (s : State) : Host.Outcome State Fault Refusal :=
  if s.flt then .next (respondHalted s)
  else
    match decodeCommand h p with
    | .ok i => exec i s
    | .error e => rejectCommand e s

/-- One command off CMD and its response onto RSP (43_commands.md R166). -/
def commandCycle (s : State) : Host.Outcome State Fault Refusal :=
  match takeCommand s.cmd with
  | none => .fault .awaitingCommand
  | some (h, p, rest) => runCommand h p (s.setCmd rest)

end Sys2Proof.Machine
end

