-- ==== Sys2Proof/Machine/Step.lean ====
section
/-! DEFINITION. One step of the machine: a pending reset is taken (70_reset_and_hazards.md R220), else one command is
consumed and answered (43_commands.md R166). -/

namespace Sys2Proof.Machine

/-- One step. -/
def step (s : State) : Host.Outcome State Fault Refusal :=
  match s.rst with
  | some m => .next (takeReset m s)
  | none => commandCycle s

/-- `s` with the command of the opcode table's bits `w` next on CMD and no reset pending, so that the next step reads
exactly it (log 10). -/
def State.withFetchWord (s : State) (nbits w : Nat) : State :=
  { s with cmd := tableWords nbits w ++ s.cmd, rst := none }

end Sys2Proof.Machine
end

