-- ==== Sys2Proof/Machine/Environment.lean ====
section
/-! DEFINITION. What the host can do to the machine between steps (30_encoding.md R70; 10_state.md R35, R39;
20_memory.md R57, R61): send words on CMD, assert RST, and read and write BUF while no command is outstanding. RSP is read
in the state. These are inputs, not steps of the core. What only a second source, or a host that breaks its duties, could
see is left out (log 11). -/

namespace Sys2Proof.Machine

/-- The host sends words on CMD (30_encoding.md R70). -/
def State.send (s : State) (ws : List Word32) : State := { s with cmd := s.cmd ++ ws }

/-- The host asserts RST; the reset lands when an `APPLY` it cuts off has written `m` bytes
(70_reset_and_hazards.md R220; log 6). -/
def State.assertReset (s : State) (m : Nat) : State := { s with rst := some m }

/-- The host may touch BUF: no command is outstanding, that is no word of one is on CMD, sent and not yet answered, and no
reset is pending (20_memory.md R57, R61; 70_reset_and_hazards.md R227; 93_implementation_defined.md U22; log 15). -/
def State.hostOwnsBuf (s : State) : Bool := s.cmd.isEmpty && s.rst.isNone

/-- The host reads one byte of BUF (20_memory.md R58). There is no such move during a command (R57, U22), and an address
outside BUF does not exist (R59). -/
def State.hostLoad (s : State) (a : Nat) : Option Byte :=
  if s.hostOwnsBuf = true ∧ a < s.bufSize then some (s.buf.read a) else none

/-- The host writes one byte of BUF (20_memory.md R58). There is no such move during a command (R57, U22), and an address
outside BUF does not exist (R59). -/
def State.hostStore (s : State) (a : Nat) (v : Byte) : Option State :=
  if s.hostOwnsBuf = true ∧ a < s.bufSize then some (s.setBuf (s.buf.write a v)) else none

end Sys2Proof.Machine
end

