-- ==== Sys2Proof/Safety.lean ====
section
/-! DEFINITION. The terms the statements are made in: the machine's invariant, the keystream as the spec defines it, what
the host can tell apart, the plain forms of the two answers of a faulted core, and short command sequences. None of
them is used by the machine. -/

namespace Sys2Proof.Machine

/-! ## The invariant -/

/-- What every state the machine reaches satisfies (10_state.md R28, R30, R33, R35; 60_exceptions.md R201). R33 asks
`POS < 16 → KV = SV = 1` of every reachable state, and R37 leaves POS unspecified until a command writes it, so the
clause is stated from the first `SET_KEY` or `SET_IV` on (log 2). -/
structure State.Inv (s : State) : Prop where
  /-- An unfinished block belongs to a seeded stream. -/
  position : s.kv = true ∨ s.sv = true → s.pos.val < 16 → s.kv = true ∧ s.sv = true
  /-- `CAUSE` is 0 while no fault is latched. -/
  noCause : s.flt = false → s.cause = 0#4
  /-- A latched fault has one of the codes 1..5. -/
  someCause : s.flt = true → 1 ≤ s.cause.toNat ∧ s.cause.toNat ≤ 5
  /-- BUF is in its canonical form. -/
  canonical : Memory.wf s.buf = true
  /-- Every cell of BUF lies inside BUF. -/
  inside : ∀ c ∈ s.buf, c.1 < s.bufSize

/-! ## The keystream (43_commands.md R167) -/

/-- `B(n)` of 43_commands.md R167 from `B0 = b`: the cipher applied n times. -/
def nthBlock (w : KeyWords) : Nat → Block → Block
  | 0, b => b
  | n + 1, b => cipher (nthBlock w n b) w

/-- Byte j of `KS = B1 ++ B2 ++ ...` for round keys `w` and IV `iv` (43_commands.md R167). -/
def streamByte (w : KeyWords) (iv : Block) (j : Nat) : Byte :=
  (nthBlock w (j / 16 + 1) iv)[j % 16]'(by omega)

/-- The keystream byte the machine hands out after j more, counted from `ST` and `POS`. -/
def keystreamByte (s : State) (j : Nat) : Byte :=
  (nthBlock s.w ((s.pos.val + j) / 16) s.st)[(s.pos.val + j) % 16]'(by omega)

/-- Payload word j of a chunk, as the pseudocode of 43_commands.md R164 builds it. -/
def chunkWord (st : Block) (off len j : Nat) : Word32 :=
  (List.range 4).foldl
    (fun v k =>
      if 4 * j + k < len then v ||| ((st[off + 4 * j + k]?.getD 0#8).setWidth 32 <<< (8 * k)) else v)
    0#32

/-! ## The field, for the algebraic form of the S-box (40_gf_sbox.md R100, R105) -/

/-- The sum of `a * x^i` over the first `n` bits i set in `b`, from bit `i` on (40_gf_sbox.md R100, R108). -/
def fieldMulFrom (b : Byte) : (n i : Nat) → (a : Byte) → Byte
  | 0, _, _ => 0#8
  | n + 1, i, a => (if b.getLsbD i then a else 0#8) ^^^ fieldMulFrom b n (i + 1) (mul2 a)

/-- The product in GF(2^8) modulo 0x11B (40_gf_sbox.md R100). The core has no such multiplier. -/
def fieldMul (a b : Byte) : Byte := fieldMulFrom b 8 0 a

/-- The affine map `A` (40_gf_sbox.md R105). -/
def affineMap (b : Byte) : Byte :=
  b ^^^ b.rotateLeft 1 ^^^ b.rotateLeft 2 ^^^ b.rotateLeft 3 ^^^ b.rotateLeft 4 ^^^ 0x63#8

/-! ## The answers of a faulted core -/

/-- `s` after fault number c: `FLT`, `CAUSE` and the response `1 | c << 4`, nothing else (60_exceptions.md R200). -/
def State.afterFault (s : State) (c : BitVec 4) : State :=
  { s with flt := true, cause := c, rsp := s.rsp ++ [1#32 ||| (c.setWidth 32 <<< 4)] }

/-- `s` after a command it did not execute: the response `2 | CAUSE << 4`, nothing else (60_exceptions.md R209). -/
def State.afterHalted (s : State) : State :=
  { s with rsp := s.rsp ++ [2#32 ||| (s.cause.setWidth 32 <<< 4)] }

/-- What a step does with a whole command of header `h` that decodes to `i` and leaves `rest` on CMD: HALTED,
RESERVED_BITS, or the command's own meaning (43_commands.md R166; the fault lines of R162 to R165). -/
def commandStep (s : State) (h : Word32) (i : Instr) (rest : List Word32) : Host.Outcome State Fault Refusal :=
  if s.flt then .next { s with cmd := rest }.afterHalted
  else if h.extractLsb' 4 28 ≠ 0#28 then .next ({ s with cmd := rest }.afterFault 2#4)
  else exec i { s with cmd := rest }

/-! ## Command sequences -/

/-- The commands in order, each to a next state. -/
def execAll : List Instr → State → Option State
  | [], s => some s
  | i :: is, s =>
    match exec i s with
    | .next t => execAll is t
    | _ => none

/-- `APPLY a, L1`; `APPLY a+L1, L2`; ... (43_commands.md R168). -/
def splitApply : Nat → List Word32 → List Instr
  | _, [] => []
  | a, l :: ls => .apply (BitVec.ofNat 32 a) l :: splitApply (a + l.toNat) ls

/-! ## What the host can tell apart -/

/-- Two machines that differ at most in Scratch, in registers no command has written since reset, and in the model's
reset counter (10_state.md R27, R34, R37; 93_implementation_defined.md U9, U10). -/
structure State.SameToHost (s t : State) : Prop where
  kv : s.kv = t.kv
  sv : s.sv = t.sv
  flt : s.flt = t.flt
  cause : s.cause = t.cause
  bufTop : s.bufTop = t.bufTop
  buf : s.buf = t.buf
  cmd : s.cmd = t.cmd
  rsp : s.rsp = t.rsp
  rst : s.rst = t.rst
  w : s.kv = true → s.w = t.w
  st : s.sv = true → s.st = t.st
  pos : s.kv = true → s.sv = true → s.pos = t.pos

end Sys2Proof.Machine
end

