-- ==== Sys2Proof/Certificates/Slice0/Obligations.lean ====
section
/-! DEFINITION. The statements for the provers, each from the numbered rules of spec/ its docstring names. Scratch is
unconstrained after a command that may run a cipher pass (10_state.md R27), so a statement about the state after one says
only that Scratch holds some value. -/

open Sys2Proof Sys2Proof.Machine

/-! ## Field and S-box (40_gf_sbox.md) -/

/-- R101, R102: the multipliers by 2 and 3, their corner cases, and that doubling is a bijection. -/
def Obligations.MultipliersByTwoAndThree : Prop :=
  (∀ x : Byte, mul2 x = (x <<< 1) ^^^ (if 128 ≤ x.toNat then 0x1B#8 else 0x00#8)) ∧
    Function.Bijective mul2 ∧
    mul2 0x00#8 = 0x00#8 ∧ mul2 0x80#8 = 0x1B#8 ∧ mul2 0x7F#8 = 0xFE#8 ∧ mul2 0xFF#8 = 0xE5#8 ∧
    mul2 0x8D#8 = 0x01#8 ∧ mul2 0x57#8 = 0xAE#8 ∧ mul2 0xAE#8 = 0x47#8 ∧
    (∀ x : Byte, mul3 x = x ^^^ mul2 x) ∧
    mul3 0x00#8 = 0x00#8 ∧ mul3 0x01#8 = 0x03#8 ∧ mul3 0x80#8 = 0x9B#8 ∧ mul3 0xFF#8 = 0x1A#8 ∧
    mul3 0x57#8 = 0xF9#8

/-- R107: both multipliers are linear over XOR. -/
def Obligations.MultipliersAreLinear : Prop :=
  ∀ a b : Byte, mul2 a ^^^ mul2 b = mul2 (a ^^^ b) ∧ mul3 a ^^^ mul3 b = mul3 (a ^^^ b)

/-- R103, R106: the S-box reads row `hx`, column `y` of the table, is bijective, has 0x52 as the only preimage of 0 and
no fixed point. -/
def Obligations.SboxIsABijection : Prop :=
  (∀ r c : Fin 16, sbox (BitVec.ofNat 8 (16 * r.val + c.val)) = sboxRows[r].extractLsb' (8 * (15 - c.val)) 8) ∧
    Function.Bijective sbox ∧ (∀ x : Byte, sbox x = 0x00#8 ↔ x = 0x52#8) ∧ (∀ x : Byte, sbox x ≠ x) ∧
    sbox 0x00#8 = 0x63#8 ∧ sbox 0xFF#8 = 0x16#8 ∧ sbox 0x53#8 = 0xED#8

/-- R105: the S-box is the affine map of the field inverse, with 0 for the inverse of 0. -/
def Obligations.SboxIsInverseThenAffine : Prop :=
  (∀ x : Byte, x ≠ 0x00#8 → ∃ y : Byte, fieldMul x y = 0x01#8 ∧ sbox x = affineMap y) ∧
    sbox 0x00#8 = affineMap 0x00#8

/-! ## Round constant and key schedule (41_key_schedule.md) -/

/-- R121: the round constants 1..10, each the double of the one before. -/
def Obligations.RoundConstantValues : Prop :=
  rcon 1 = 0x01#8 ∧ rcon 2 = 0x02#8 ∧ rcon 3 = 0x04#8 ∧ rcon 4 = 0x08#8 ∧ rcon 5 = 0x10#8 ∧ rcon 6 = 0x20#8 ∧
    rcon 7 = 0x40#8 ∧ rcon 8 = 0x80#8 ∧ rcon 9 = 0x1B#8 ∧ rcon 10 = 0x36#8 ∧
    (∀ a : Nat, 2 ≤ a → a ≤ 10 → rcon a = mul2 (rcon (a - 1)))

/-- R122, R123: the word operations, byte by byte, and their corner cases. -/
def Obligations.WordOperations : Prop :=
  (∀ (t : KWord) (i : Fin 4), (rotWord t)[i] = t[(i.val + 1) % 4]'(by omega)) ∧
    (∀ b : Byte, rotWord #v[b, b, b, b] = #v[b, b, b, b]) ∧
    (∀ t : KWord, rotWord (rotWord (rotWord (rotWord t))) = t) ∧
    rotWord #v[0x09#8, 0xcf#8, 0x4f#8, 0x3c#8] = #v[0xcf#8, 0x4f#8, 0x3c#8, 0x09#8] ∧
    (∀ (t : KWord) (i : Fin 4), (subWord t)[i] = sbox t[i]) ∧
    subWord #v[0x00#8, 0x00#8, 0x00#8, 0x00#8] = #v[0x63#8, 0x63#8, 0x63#8, 0x63#8] ∧
    subWord #v[0xcf#8, 0x4f#8, 0x3c#8, 0x09#8] = #v[0x8a#8, 0x84#8, 0xeb#8, 0x01#8]

/-- R124, R126: the 44 words of a key expansion: the key first, then each word from the words one and four before it. -/
def Obligations.KeyExpansionRecurrence : Prop :=
  ∀ k : Block,
    (∀ i j : Fin 4, (keyExpansion k)[i.val][j] = k[4 * i.val + j.val]) ∧
      (∀ (i : Nat) (hi : i + 4 < 44) (j : Fin 4),
        (keyExpansion k)[i + 4][j] =
          (keyExpansion k)[i][j] ^^^
            (if i % 4 = 0 then
              (subWord (rotWord (keyExpansion k)[i + 3]))[j] ^^^ (if j.val = 0 then rcon ((i + 4) / 4) else 0x00#8)
            else (keyExpansion k)[i + 3][j])) ∧
      roundKey (keyExpansion k) 0 = k ∧
      (k = Vector.replicate 16 0x00#8 →
        ∀ c : Fin 4, (keyExpansion k)[4 + c.val] = #v[0x62#8, 0x63#8, 0x63#8, 0x63#8]) ∧
      (k = #v[0x00#8, 0x01#8, 0x02#8, 0x03#8, 0x04#8, 0x05#8, 0x06#8, 0x07#8,
          0x08#8, 0x09#8, 0x0a#8, 0x0b#8, 0x0c#8, 0x0d#8, 0x0e#8, 0x0f#8] →
        roundKey (keyExpansion k) 10 =
          #v[0x13#8, 0x11#8, 0x1d#8, 0x7f#8, 0xe3#8, 0x94#8, 0x4a#8, 0x17#8,
            0xf3#8, 0x07#8, 0xa7#8, 0x8b#8, 0x4d#8, 0x2b#8, 0x30#8, 0xc5#8])

/-- R24: round key r is words 4r..4r+3 one after the other, and column c of it is word 4r + c. -/
def Obligations.RoundKeyIsFourWords : Prop :=
  ∀ (w : KeyWords) (r : Fin 11),
    (roundKey w r).toList =
        w[4 * r.val].toList ++ w[4 * r.val + 1].toList ++ w[4 * r.val + 2].toList ++ w[4 * r.val + 3].toList ∧
      (∀ i : Fin 16, (roundKey w r)[i] = w[4 * r.val + i.val / 4][i.val % 4]'(by omega)) ∧
      (∀ c k : Fin 4, (roundKey w r)[4 * c.val + k.val] = w[4 * r.val + c.val][k])

/-! ## Round transform (42_round_transform.md) -/

/-- R140, R141: AddRoundKey is a bytewise XOR; SrcIndex reads row r from column (c + r) mod 4. -/
def Obligations.AddRoundKeyAndSourceIndex : Prop :=
  (∀ (rk s : Block) (i : Fin 16), (addRoundKey rk s)[i] = s[i] ^^^ rk[i]) ∧
    (∀ s : Block, addRoundKey (Vector.replicate 16 0x00#8) s = s) ∧
    (∀ r c : Fin 4, (srcIndex r c).val = r.val + 4 * ((c.val + r.val) % 4)) ∧
    (∀ c : Fin 4, (srcIndex 0 c).val = 4 * c.val) ∧
    addRoundKey
        #v[0x00#8, 0x01#8, 0x02#8, 0x03#8, 0x04#8, 0x05#8, 0x06#8, 0x07#8,
          0x08#8, 0x09#8, 0x0a#8, 0x0b#8, 0x0c#8, 0x0d#8, 0x0e#8, 0x0f#8]
        #v[0x00#8, 0x11#8, 0x22#8, 0x33#8, 0x44#8, 0x55#8, 0x66#8, 0x77#8,
          0x88#8, 0x99#8, 0xaa#8, 0xbb#8, 0xcc#8, 0xdd#8, 0xee#8, 0xff#8] =
      #v[0x00#8, 0x10#8, 0x20#8, 0x30#8, 0x40#8, 0x50#8, 0x60#8, 0x70#8,
        0x80#8, 0x90#8, 0xa0#8, 0xb0#8, 0xc0#8, 0xd0#8, 0xe0#8, 0xf0#8] ∧
    ([0, 1, 2, 3] : List (Fin 4)).map (fun c => ([0, 1, 2, 3] : List (Fin 4)).map fun r => (srcIndex r c).val) =
      [[0, 5, 10, 15], [4, 9, 14, 3], [8, 13, 2, 7], [12, 1, 6, 11]]

/-- R143: MixColumn's four equations, its corner cases, and that it is linear over XOR. -/
def Obligations.MixColumnIsLinear : Prop :=
  (∀ x0 x1 x2 x3 : Byte,
      mixColumn #v[x0, x1, x2, x3] =
        #v[mul2 x0 ^^^ mul3 x1 ^^^ x2 ^^^ x3, x0 ^^^ mul2 x1 ^^^ mul3 x2 ^^^ x3,
           x0 ^^^ x1 ^^^ mul2 x2 ^^^ mul3 x3, mul3 x0 ^^^ x1 ^^^ x2 ^^^ mul2 x3]) ∧
    (∀ x y : KWord, mixColumn (KWord.xor x y) = KWord.xor (mixColumn x) (mixColumn y)) ∧
    (∀ c : Byte, mixColumn #v[c, c, c, c] = #v[c, c, c, c]) ∧
    mixColumn #v[0x01#8, 0x00#8, 0x00#8, 0x00#8] = #v[0x02#8, 0x01#8, 0x01#8, 0x03#8] ∧
    mixColumn #v[0xd4#8, 0xbf#8, 0x5d#8, 0x30#8] = #v[0x04#8, 0x66#8, 0x81#8, 0xe5#8]

/-- R144, R145: a round writes every byte of Scratch from the pre-round State and then copies Scratch into State; nothing
else changes. Round 10 has no MixColumn. With the states of the known-answer test around rounds 1 and 10. -/
def Obligations.RoundsGoThroughScratch : Prop :=
  (∀ s : State,
    (∀ n : Fin 11, 1 ≤ n.val → n.val ≤ 9 →
      ∃ b : Block, roundPass n s = { s with scr := b, st := b } ∧
        ∀ c r : Fin 4,
          b[4 * c.val + r.val] =
            (mixColumn #v[sbox s.st[srcIndex 0 c], sbox s.st[srcIndex 1 c], sbox s.st[srcIndex 2 c],
              sbox s.st[srcIndex 3 c]])[r] ^^^ (roundKey s.w n)[4 * c.val + r.val]) ∧
      ∃ b : Block, finalPass s = { s with scr := b, st := b } ∧
        ∀ c r : Fin 4, b[4 * c.val + r.val] = sbox s.st[srcIndex r c] ^^^ (roundKey s.w 10)[4 * c.val + r.val]) ∧
    ∀ key : Block,
      key = #v[0x00#8, 0x01#8, 0x02#8, 0x03#8, 0x04#8, 0x05#8, 0x06#8, 0x07#8,
          0x08#8, 0x09#8, 0x0a#8, 0x0b#8, 0x0c#8, 0x0d#8, 0x0e#8, 0x0f#8] →
        fullRound (roundKey (keyExpansion key) 1)
            #v[0x00#8, 0x10#8, 0x20#8, 0x30#8, 0x40#8, 0x50#8, 0x60#8, 0x70#8,
              0x80#8, 0x90#8, 0xa0#8, 0xb0#8, 0xc0#8, 0xd0#8, 0xe0#8, 0xf0#8] =
          #v[0x89#8, 0xd8#8, 0x10#8, 0xe8#8, 0x85#8, 0x5a#8, 0xce#8, 0x68#8,
            0x2d#8, 0x18#8, 0x43#8, 0xd8#8, 0xcb#8, 0x12#8, 0x8f#8, 0xe4#8] ∧
        finalRound (roundKey (keyExpansion key) 10)
            #v[0xbd#8, 0x6e#8, 0x7c#8, 0x3d#8, 0xf2#8, 0xb5#8, 0x77#8, 0x9e#8,
              0x0b#8, 0x61#8, 0x21#8, 0x6e#8, 0x8b#8, 0x10#8, 0xb6#8, 0x89#8] =
          #v[0x69#8, 0xc4#8, 0xe0#8, 0xd8#8, 0x6a#8, 0x7b#8, 0x04#8, 0x30#8,
            0xd8#8, 0xcd#8, 0xb7#8, 0x80#8, 0x70#8, 0xb4#8, 0xc5#8, 0x5a#8]

/-- R146: the cipher is round 0, rounds 1..9 and round 10 in order, gives the source's known answer, and is for fixed
round keys a bijection on blocks. -/
def Obligations.CipherIsAPermutation : Prop :=
  (∀ (b : Block) (w : KeyWords),
      cipher b w =
        finalRound (roundKey w 10)
          (([1, 2, 3, 4, 5, 6, 7, 8, 9] : List (Fin 11)).foldl (fun x n => fullRound (roundKey w n) x)
            (addRoundKey (roundKey w 0) b))) ∧
    (∀ w : KeyWords, Function.Bijective fun b => cipher b w) ∧
    cipher
        #v[0x00#8, 0x11#8, 0x22#8, 0x33#8, 0x44#8, 0x55#8, 0x66#8, 0x77#8,
           0x88#8, 0x99#8, 0xaa#8, 0xbb#8, 0xcc#8, 0xdd#8, 0xee#8, 0xff#8]
        (keyExpansion
          #v[0x00#8, 0x01#8, 0x02#8, 0x03#8, 0x04#8, 0x05#8, 0x06#8, 0x07#8,
             0x08#8, 0x09#8, 0x0a#8, 0x0b#8, 0x0c#8, 0x0d#8, 0x0e#8, 0x0f#8]) =
      #v[0x69#8, 0xc4#8, 0xe0#8, 0xd8#8, 0x6a#8, 0x7b#8, 0x04#8, 0x30#8,
         0xd8#8, 0xcd#8, 0xb7#8, 0x80#8, 0x70#8, 0xb4#8, 0xc5#8, 0x5a#8]

/-- R147 and section 3 of 42_round_transform.md: the pass over the registers, through Scratch, computes the function form
of the cipher. -/
def Obligations.CipherPassRefinesCipher : Prop :=
  ∀ s : State, ∃ b : Block, cipherPass s = { s with st := cipher s.st s.w, scr := b }

/-! ## Keystream context (43_commands.md, section 1) -/

/-- R160: Advance does nothing while a block is not used up, and otherwise replaces State by its cipher and POS by 0. -/
def Obligations.AdvanceStepsTheBlock : Prop :=
  ∀ s : State,
    (s.pos.val < 16 → advance s = s) ∧
      (16 ≤ s.pos.val → ∃ b : Block, advance s = { s with st := cipher s.st s.w, scr := b, pos := 0 })

/-- R161: TakeChunk advances, hands out `min(16 - POS, n)` bytes from POS on, and moves POS by as many; with its corner
cases. -/
def Obligations.TakeChunkHandsOutTheRest : Prop :=
  ∀ (n : Nat) (s : State) (off len : Nat) (t : State), takeChunk n s = (off, len, t) →
    off = (advance s).pos.val ∧ off ≤ 15 ∧ len = min (16 - off) n ∧
      t = { advance s with pos := Fin.ofNat 17 (off + len) } ∧ t.pos.val = off + len ∧
      (∀ m : Nat, m < len → (chunkBytes t.st off len)[m]? = t.st[off + m]?) ∧ (chunkBytes t.st off len).length = len ∧
      (s.pos.val < 16 → n = 0 → t = s) ∧
      (s.pos.val = 16 → n = 0 → t.st = cipher s.st s.w ∧ t.pos.val = 0 ∧ len = 0) ∧
      (16 - (advance s).pos.val ≤ n → t.pos.val = 16) ∧
      (s.pos.val = 5 → n = 100 → off = 5 ∧ len = 11 ∧ t.pos.val = 16)

/-! ## The four commands (43_commands.md, section 2) -/

/-- R162: SET_KEY, as the command's meaning and as a step from its words: HALTED, RESERVED_BITS, or its effect. -/
def Obligations.SetKeyLoadsTheSchedule : Prop :=
  (∀ (key : Block) (s : State),
      exec (.setKey key) s =
        .next { s with w := keyExpansion key, kv := true, pos := 16, rsp := s.rsp ++ [0x00000000#32] }) ∧
    ∀ (s : State) (h w0 w1 w2 w3 : Word32) (rest : List Word32),
      s.rst = none → s.cmd = h :: w0 :: w1 :: w2 :: w3 :: rest → h.extractLsb' 0 4 = 1#4 →
        step s = commandStep s h (.setKey (unpackBlock w0 w1 w2 w3)) rest

/-- R163: SET_IV, as the command's meaning and as a step from its words: HALTED, RESERVED_BITS, or its effect. -/
def Obligations.SetIvSeedsTheState : Prop :=
  (∀ (iv : Block) (s : State),
      exec (.setIv iv) s = .next { s with st := iv, sv := true, pos := 16, rsp := s.rsp ++ [0x00000000#32] }) ∧
    ∀ (s : State) (h w0 w1 w2 w3 : Word32) (rest : List Word32),
      s.rst = none → s.cmd = h :: w0 :: w1 :: w2 :: w3 :: rest → h.extractLsb' 0 4 = 2#4 →
        step s = commandStep s h (.setIv (unpackBlock w0 w1 w2 w3)) rest

/-- R164: NEXT_CHUNK: its two faults in order, and otherwise the chunk of the current block, or of the next one when the
current is used up, with OFF and LEN in the header and `ceil(LEN/4)` words. -/
def Obligations.NextChunkReturnsKeystream : Prop :=
  ∀ (n : Word32) (s : State),
    (s.kv = false → exec (.nextChunk n) s = .next (s.afterFault 3#4)) ∧
      (s.kv = true → s.sv = false → exec (.nextChunk n) s = .next (s.afterFault 4#4)) ∧
      (s.kv = true → s.sv = true →
        ∀ (block : Block) (off len : Nat),
          block = (if s.pos.val = 16 then cipher s.st s.w else s.st) →
          off = (if s.pos.val = 16 then 0 else s.pos.val) → len = min (16 - off) n.toNat →
            ∃ b : Block,
              exec (.nextChunk n) s =
                .next { s with
                  st := block
                  scr := b
                  pos := Fin.ofNat 17 (off + len)
                  rsp := s.rsp ++ BitVec.ofNat 32 (len * 2 ^ 8 + off * 2 ^ 16) ::
                    (List.range ((len + 3) / 4)).map (chunkWord block off len) }) ∧
      ∀ (h : Word32) (rest : List Word32),
        s.rst = none → s.cmd = h :: n :: rest → h.extractLsb' 0 4 = 3#4 → step s = commandStep s h (.nextChunk n) rest

/-- R165, R170: APPLY: nothing at LEN = 0; its three faults in order; and otherwise every byte of the range is XORed with
its keystream byte, no other byte changes, and State and POS end where the count of R170 says. -/
def Obligations.ApplyXorsTheRange : Prop :=
  ∀ (addr len : Word32) (s : State),
    (len = 0#32 → exec (.apply addr len) s = .next { s with rsp := s.rsp ++ [0x00000000#32] }) ∧
      (len ≠ 0#32 → s.kv = false → exec (.apply addr len) s = .next (s.afterFault 3#4)) ∧
      (len ≠ 0#32 → s.kv = true → s.sv = false → exec (.apply addr len) s = .next (s.afterFault 4#4)) ∧
      (len ≠ 0#32 → s.kv = true → s.sv = true → s.bufSize < addr.toNat + len.toNat →
        exec (.apply addr len) s = .next (s.afterFault 5#4)) ∧
      (len ≠ 0#32 → s.kv = true → s.sv = true → addr.toNat + len.toNat ≤ s.bufSize → Memory.wf s.buf = true →
        ∃ (b : Block) (m : Memory),
          exec (.apply addr len) s =
              .next { s with
                st :=
                  nthBlock s.w
                    (if len.toNat ≤ 16 - s.pos.val then 0 else (len.toNat - (16 - s.pos.val) + 15) / 16) s.st
                scr := b
                pos :=
                  Fin.ofNat 17
                    (if len.toNat ≤ 16 - s.pos.val then s.pos.val + len.toNat
                    else if (len.toNat - (16 - s.pos.val)) % 16 = 0 then 16
                    else (len.toNat - (16 - s.pos.val)) % 16)
                buf := m
                rsp := s.rsp ++ [0x00000000#32] } ∧
            (∀ i : Nat, i < len.toNat → m.read (addr.toNat + i) = s.buf.read (addr.toNat + i) ^^^ keystreamByte s i) ∧
            (∀ a : Nat, a < addr.toNat ∨ addr.toNat + len.toNat ≤ a → m.read a = s.buf.read a)) ∧
      ∀ (h : Word32) (rest : List Word32),
        s.rst = none → s.cmd = h :: addr :: len :: rest → h.extractLsb' 0 4 = 4#4 →
          step s = commandStep s h (.apply addr len) rest

/-- What the four commands leave unchanged, from 10_state.md sections 3 to 7 and 43_commands.md section 2: every
register, flag, channel and byte of BUF they do not write. -/
def Obligations.CommandFrames : Prop :=
  ∀ s t : State,
    (∀ key : Block, exec (.setKey key) s = .next t →
      t.st = s.st ∧ t.scr = s.scr ∧ t.sv = s.sv ∧ t.flt = s.flt ∧ t.cause = s.cause ∧ t.bufTop = s.bufTop ∧
        t.cmd = s.cmd ∧ t.rst = s.rst ∧ ∀ a : Nat, t.buf.read a = s.buf.read a) ∧
      (∀ iv : Block, exec (.setIv iv) s = .next t →
        t.w = s.w ∧ t.scr = s.scr ∧ t.kv = s.kv ∧ t.flt = s.flt ∧ t.cause = s.cause ∧ t.bufTop = s.bufTop ∧
          t.cmd = s.cmd ∧ t.rst = s.rst ∧ ∀ a : Nat, t.buf.read a = s.buf.read a) ∧
      (∀ n : Word32, exec (.nextChunk n) s = .next t →
        t.w = s.w ∧ t.kv = s.kv ∧ t.sv = s.sv ∧ (s.kv = true → s.sv = true → t.flt = s.flt ∧ t.cause = s.cause) ∧
          t.bufTop = s.bufTop ∧ t.cmd = s.cmd ∧ t.rst = s.rst ∧ ∀ a : Nat, t.buf.read a = s.buf.read a) ∧
      ∀ addr len : Word32, exec (.apply addr len) s = .next t →
        t.w = s.w ∧ t.kv = s.kv ∧ t.sv = s.sv ∧
          (s.kv = true → s.sv = true → addr.toNat + len.toNat ≤ s.bufSize → t.flt = s.flt ∧ t.cause = s.cause) ∧
          t.bufTop = s.bufTop ∧ t.cmd = s.cmd ∧ t.rst = s.rst ∧
          (Memory.wf s.buf = true →
            ∀ a : Nat, a < addr.toNat ∨ addr.toNat + len.toNat ≤ a → t.buf.read a = s.buf.read a)

/-! ## The command cycle (43_commands.md, section 3) -/

/-- R166 (section 3 of 43_commands.md): when the words on CMD decode to an instruction, no reset is pending and no fault
is latched, the step takes its words off CMD and is `exec` of it. -/
def Obligations.StepRunsTheDecodedCommand : Prop :=
  ∀ (s : State) (i : Instr) (rest : List Word32),
    s.rst = none → s.flt = false → decode s.cmd = .ok (i, rest) → i.wellFormed = true →
      step s = exec i { s with cmd := rest }

/-- R207: one command is checked in the stated order, the first condition that holds is reported, and a command that
passes every check latches no fault. -/
def Obligations.ChecksAreMadeInOrder : Prop :=
  ∀ (s : State) (h : Word32) (p rest : List Word32),
    s.rst = none → s.cmd = h :: p ++ rest → p.length = payloadWords (h.extractLsb' 0 4) →
      let op := (h.extractLsb' 0 4).toNat
      let u : State := { s with cmd := rest }
      if s.flt = true then step s = .next u.afterHalted
      else if op = 0 ∨ 5 ≤ op then step s = .next (u.afterFault 1#4)
      else if h.extractLsb' 4 28 ≠ 0#28 then step s = .next (u.afterFault 2#4)
      else if op = 4 ∧ p[1]? = some 0#32 then step s = .next { u with rsp := s.rsp ++ [0x00000000#32] }
      else if (op = 3 ∨ op = 4) ∧ s.kv = false then step s = .next (u.afterFault 3#4)
      else if (op = 3 ∨ op = 4) ∧ s.sv = false then step s = .next (u.afterFault 4#4)
      else if op = 4 ∧ s.bufSize < (p.getD 0 0#32).toNat + (p.getD 1 0#32).toNat then
        step s = .next (u.afterFault 5#4)
      else ∃ t : State, step s = .next t ∧ t.flt = false ∧ t.cause = s.cause ∧ t.cmd = rest

/-- R232 (70_reset_and_hazards.md section 4): a step stops only while no reset is pending and the words of a command have
not all arrived; every command whose words have all arrived completes. -/
def Obligations.OnlyAWaitingCoreHasNoStep : Prop :=
  ∀ s : State,
    (∃ t : State, step s = .next t) ∨
      (step s = .fault .awaitingCommand ∧ s.rst = none ∧
        (s.cmd = [] ∨ ∃ (h : Word32) (p : List Word32), s.cmd = h :: p ∧ p.length < payloadWords (h.extractLsb' 0 4)))

/-! ## Laws of the keystream (43_commands.md, section 4) -/

/-- R167: SET_IV starts a stream at block 0; NEXT_CHUNK and APPLY hand out its bytes in order, without gap or repeat; and
the order of SET_KEY and SET_IV does not matter. `b` is the block State holds and `taken` the count T of bytes handed
out. -/
def Obligations.KeystreamLaw : Prop :=
  (∀ (iv : Block) (s t : State), exec (.setIv iv) s = .next t → t.st = nthBlock t.w 0 iv ∧ 0 + 16 = 16 * 0 + t.pos.val) ∧
    (∀ (iv : Block) (s : State) (b taken : Nat),
      s.kv = true → s.sv = true → s.st = nthBlock s.w b iv → taken + 16 = 16 * b + s.pos.val →
        (∀ n : Word32,
          ∃ (t : State) (off len b' : Nat),
            exec (.nextChunk n) s = .next t ∧
              t.rsp = s.rsp ++ BitVec.ofNat 32 (len * 2 ^ 8 + off * 2 ^ 16) ::
                (List.range ((len + 3) / 4)).map (chunkWord t.st off len) ∧
              off + len ≤ 16 ∧ len ≤ n.toNat ∧
              (∀ m : Nat, m < len → t.st[off + m]? = some (streamByte s.w iv (taken + m))) ∧
              t.st = nthBlock t.w b' iv ∧ taken + len + 16 = 16 * b' + t.pos.val) ∧
          ∀ addr len : Word32,
            addr.toNat + len.toNat ≤ s.bufSize → Memory.wf s.buf = true →
              ∃ (t : State) (b' : Nat),
                exec (.apply addr len) s = .next t ∧
                  (∀ i : Nat, i < len.toNat →
                    t.buf.read (addr.toNat + i) =
                      s.buf.read (addr.toNat + i) ^^^ streamByte s.w iv (taken + i)) ∧
                  t.st = nthBlock t.w b' iv ∧ taken + len.toNat + 16 = 16 * b' + t.pos.val) ∧
    ∀ (key iv : Block) (s : State), execAll [.setKey key, .setIv iv] s = execAll [.setIv iv, .setKey key] s

/-- R168, for ranges inside BUF: one APPLY leaves the same BUF, State and POS as any split of it into APPLYs one after the
other, zero parts allowed. -/
def Obligations.ApplyInAnyChunks : Prop :=
  ∀ (s : State) (addr len : Word32) (parts : List Word32),
    s.kv = true → s.sv = true → s.flt = false → addr.toNat + len.toNat ≤ s.bufSize →
      (parts.map BitVec.toNat).sum = len.toNat →
        ∃ t u : State,
          exec (.apply addr len) s = .next t ∧ execAll (splitApply addr.toNat parts) s = some u ∧
            u.flt = false ∧ u.buf = t.buf ∧ u.st = t.st ∧ u.pos = t.pos

/-- R169: from reset, SET_KEY, SET_IV and APPLY XOR the range with the stream; the same run on the result, or SET_IV and
APPLY again on the same core, restores BUF. -/
def Obligations.ApplyTwiceRestores : Prop :=
  ∀ (top : BitVec 32) (x : Memory) (k k' : Nat) (key iv : Block) (addr len : Word32),
    Memory.wf x = true → addr.toNat + len.toNat ≤ top.toNat + 1 →
      ∃ t u v : State,
        execAll [.setKey key, .setIv iv, .apply addr len] (State.resetWith top x k) = some t ∧
          (∀ i : Nat, i < len.toNat →
            t.buf.read (addr.toNat + i) = x.read (addr.toNat + i) ^^^ streamByte (keyExpansion key) iv i) ∧
          execAll [.setKey key, .setIv iv, .apply addr len] (State.resetWith top t.buf k') = some u ∧ u.buf = x ∧
          execAll [.setIv iv, .apply addr len] t = some v ∧ v.buf = x

/-- R230: SET_KEY in the middle of a stream keeps State and drops the rest of the block; the next block is the new key's
cipher of that State. -/
def Obligations.RekeyContinuesFromState : Prop :=
  ∀ (s : State) (key : Block), s.sv = true →
    ∃ t u : State,
      exec (.setKey key) s = .next t ∧ t.st = s.st ∧ t.pos.val = 16 ∧ exec (.nextChunk 16#32) t = .next u ∧
        u.st = cipher s.st (keyExpansion key) ∧
        u.rsp = t.rsp ++ 0x00001000#32 :: packBlock (cipher s.st (keyExpansion key))

/-- The meanings of the pseudo-instruction BLOCK of 30_encoding.md section 6: `exec` of SET_KEY, SET_IV and NEXT_CHUNK 16 in
order answers with the bare cipher of the input under the key, for every state. That `exec` does not look at FLT is the
model's choice (log 9): a core with a latched fault never gets to these meanings (R209). BlockRunsOnTheChannel says the
same of the core's steps, from FLT = 0. -/
def Obligations.BlockAnswersWithTheCipher : Prop :=
  ∀ (s : State) (key input : Block),
    ∃ t : State,
      execAll [.setKey key, .setIv input, .nextChunk 16#32] s = some t ∧
        t.rsp = s.rsp ++ 0x00000000#32 :: 0x00000000#32 :: 0x00001000#32 :: packBlock (cipher input (keyExpansion key))

/-! ## Faults and halting (60_exceptions.md) -/

/-- R200, with the codes of R201: taking a fault latches FLT and CAUSE, responds `1 | c << 4`, and changes nothing
else; and a step that faults does that and no more: it takes the command's words and takes the fault. -/
def Obligations.FaultsArePrecise : Prop :=
  (∀ (c : FaultCause) (s : State), raiseFault c s = s.afterFault c.code) ∧
    FaultCause.code .illegalOpcode = 1#4 ∧ FaultCause.code .reservedBits = 2#4 ∧ FaultCause.code .keyNotSet = 3#4 ∧
    FaultCause.code .ivNotSet = 4#4 ∧ FaultCause.code .bufferRange = 5#4 ∧
    ∀ s t : State, s.rst = none → s.flt = false → step s = .next t → t.flt = true →
      ∃ (c : FaultCause) (h : Word32) (p rest : List Word32),
        s.cmd = h :: p ++ rest ∧ p.length = payloadWords (h.extractLsb' 0 4) ∧ t = { s with cmd := rest }.afterFault c.code

/-- R202, R203: a reserved OP faults without consuming a payload word; a legal OP with reserved bits faults after its
payload is consumed. -/
def Obligations.ReservedHeadersFault : Prop :=
  ∀ (s : State) (h : Word32), s.rst = none → s.flt = false →
    (∀ rest : List Word32, s.cmd = h :: rest → (h.extractLsb' 0 4 = 0#4 ∨ 5 ≤ (h.extractLsb' 0 4).toNat) →
      step s = .next ({ s with cmd := rest }.afterFault 1#4)) ∧
      ∀ p rest : List Word32, s.cmd = h :: p ++ rest → p.length = payloadWords (h.extractLsb' 0 4) →
        1 ≤ (h.extractLsb' 0 4).toNat → (h.extractLsb' 0 4).toNat ≤ 4 → h.extractLsb' 4 28 ≠ 0#28 →
          step s = .next ({ s with cmd := rest }.afterFault 2#4)

/-- R206: an APPLY of at least one byte whose range is not inside BUF, by the exact sum, faults without reading or writing
BUF: also where the 32-bit sum would wrap. -/
def Obligations.ApplyOutsideBufFaults : Prop :=
  ∀ (s : State) (addr len : Word32), s.kv = true → s.sv = true → len ≠ 0#32 → s.bufSize < addr.toNat + len.toNat →
    exec (.apply addr len) s = .next (s.afterFault 5#4) ∧ (s.afterFault 5#4).buf = s.buf

/-- R209: while FLT = 1 every command, a reserved OP too, is read whole, answered `2 | CAUSE << 4`, and changes nothing
else. -/
def Obligations.HaltedCoreAnswersHalted : Prop :=
  ∀ (s : State) (h : Word32) (p rest : List Word32),
    s.rst = none → s.flt = true → s.cmd = h :: p ++ rest → p.length = payloadWords (h.extractLsb' 0 4) →
      step s = .next { s with cmd := rest, rsp := s.rsp ++ [2#32 ||| (s.cause.setWidth 32 <<< 4)] }

/-- R211: no second fault is raised, and CAUSE keeps the first fault's code. -/
def Obligations.FirstFaultIsKept : Prop :=
  ∀ s t : State, s.rst = none → s.flt = true → step s = .next t →
    t.flt = true ∧ t.cause = s.cause ∧ t = { s with cmd := t.cmd, rsp := t.rsp }

/-! ## Reset (70_reset_and_hazards.md, section 1) -/

/-- R221 (70_reset_and_hazards.md section 1): without a reset no step clears KV, SV, FLT or a latched CAUSE; a reset
clears them all. -/
def Obligations.OnlyResetClearsFlags : Prop :=
  ∀ s t : State, step s = .next t →
    (s.rst = none →
      (s.kv = true → t.kv = true) ∧ (s.sv = true → t.sv = true) ∧ (s.flt = true → t.flt = true ∧ t.cause = s.cause)) ∧
      (s.rst ≠ none → t.kv = false ∧ t.sv = false ∧ t.flt = false ∧ t.cause = 0#4)

/-- R220 (70_reset_and_hazards.md section 1; 10_state.md section 8): a reset clears the flags, empties both channels
without a response, and leaves BUF untouched but for the first `min m LEN` bytes of an APPLY it cuts off, each XORed with
its keystream byte. That a reset also drops the words queued behind the cut command, and that `m` is carried by the
pending event, is the model's reading (log 6). -/
def Obligations.ResetCutsTheCommandOff : Prop :=
  ∀ (s : State) (m : Nat), s.rst = some m →
    ∃ t : State, step s = .next t ∧ t.kv = false ∧ t.sv = false ∧ t.flt = false ∧ t.cause = 0#4 ∧ t.cmd = [] ∧
      t.rsp = [] ∧ t.rst = none ∧ t.bufTop = s.bufTop ∧
      (∀ (addr len : Word32) (rest : List Word32),
        s.flt = false → decode s.cmd = .ok (.apply addr len, rest) → s.kv = true → s.sv = true →
          addr.toNat + len.toNat ≤ s.bufSize → Memory.wf s.buf = true →
            ∀ a : Nat,
              t.buf.read a =
                if addr.toNat ≤ a ∧ a < addr.toNat + min m len.toNat then
                  s.buf.read a ^^^ keystreamByte s (a - addr.toNat)
                else s.buf.read a) ∧
      ((∀ (addr len : Word32) (rest : List Word32), decode s.cmd = .ok (.apply addr len, rest) →
          s.flt = true ∨ s.kv = false ∨ s.sv = false ∨ s.bufSize < addr.toNat + len.toNat) →
        t.buf = s.buf)

/-- What reset leaves (10_state.md section 8): the flags and CAUSE 0, both channels empty. The spec states no other
value. -/
def Obligations.ResetStateValues : Prop :=
  ∀ (top : BitVec 32) (m : Memory) (k : Nat),
    (State.resetWith top m k).kv = false ∧ (State.resetWith top m k).sv = false ∧
      (State.resetWith top m k).flt = false ∧ (State.resetWith top m k).cause = 0#4 ∧
      (State.resetWith top m k).cmd = [] ∧ (State.resetWith top m k).rsp = [] ∧ (State.resetWith top m k).buf = m

/-- R204, R205 and section 2 of 70_reset_and_hazards.md: right after reset a NEXT_CHUNK or an APPLY of at least one byte
faults KEY_NOT_SET, after SET_KEY alone IV_NOT_SET, and after both, in either order, NEXT_CHUNK completes. -/
def Obligations.BootNeedsKeyAndIv : Prop :=
  ∀ (top : BitVec 32) (m : Memory) (k : Nat) (key iv : Block) (n addr len : Word32), len ≠ 0#32 →
    let r := State.resetWith top m k
    (∀ i ∈ [Instr.nextChunk n, Instr.apply addr len],
      exec i r = .next (r.afterFault 3#4) ∧
        (∃ t : State, execAll [.setIv iv] r = some t ∧ exec i t = .next (t.afterFault 3#4)) ∧
        ∃ t : State, execAll [.setKey key] r = some t ∧ exec i t = .next (t.afterFault 4#4)) ∧
      ∃ t : State, execAll [.setKey key, .setIv iv, .nextChunk n] r = some t ∧ t.flt = false ∧
        execAll [.setIv iv, .setKey key, .nextChunk n] r = some t

/-! ## Whole-machine rules -/

/-- R32 and section 3 of 10_state.md: no step but a reset and an executed SET_KEY changes W, and an executed SET_KEY
writes all 44 words. -/
def Obligations.OnlySetKeyWritesRoundKeys : Prop :=
  ∀ s t : State, s.rst = none → step s = .next t →
    (∀ (key : Block) (rest : List Word32), s.flt = false → decode s.cmd = .ok (.setKey key, rest) →
      t.w = keyExpansion key) ∧
      ((∀ (key : Block) (rest : List Word32), decode s.cmd ≠ .ok (.setKey key, rest)) ∨ s.flt = true → t.w = s.w)

/-- Every step keeps the invariant (10_state.md R28, R30, R33; 60_exceptions.md R201), from every state that has it. Its
clause on POS is R33 in the form of log 2 (DEDUCED), and the canonical form of BUF is the model's (log 5). -/
def Obligations.StepKeepsInv : Prop := ∀ s t : State, s.Inv → step s = .next t → t.Inv

/-- The state after reset has the invariant; the empty BUF of `State.reset` is the model's (log 5). -/
def Obligations.ResetHasInv : Prop := State.reset.Inv

/-- 10_state.md R27, R34, R37 and 93_implementation_defined.md U9, U10: what Scratch holds, and what reset left in
registers no command has written, never reaches the host: two machines that differ only there answer alike for ever. -/
def Obligations.UnwrittenRegistersStayHidden : Prop :=
  ∀ s t : State, s.SameToHost t →
    (∀ s' : State, step s = .next s' → ∃ t' : State, step t = .next t' ∧ s'.SameToHost t') ∧
      (step s = .fault .awaitingCommand → step t = .fault .awaitingCommand)

/-- R86, with the fields of R77 and R79: a command is answered by one response appended to RSP: a header whose STATUS is
not 3, whose CAUSE is 0 exactly when STATUS is OK and at most 5, and whose unused bits are 0, and then `ceil(LEN / 4)`
words. -/
def Obligations.OneResponsePerCommand : Prop :=
  ∀ s t : State, s.Inv → s.rst = none → step s = .next t →
    ∃ (h : Word32) (p rest : List Word32) (r : Word32) (ws : List Word32),
      s.cmd = h :: p ++ rest ∧ p.length = payloadWords (h.extractLsb' 0 4) ∧ t.cmd = rest ∧
        t.rsp = s.rsp ++ r :: ws ∧ r.extractLsb' 0 2 ≠ 3#2 ∧ r.extractLsb' 2 2 = 0#2 ∧
        (r.extractLsb' 4 4).toNat ≤ 5 ∧ (r.extractLsb' 4 4 = 0#4 ↔ r.extractLsb' 0 2 = 0#2) ∧
        (r.extractLsb' 8 5).toNat ≤ 16 ∧ r.extractLsb' 13 3 = 0#3 ∧ r.extractLsb' 20 12 = 0#12 ∧
        ws.length = ((r.extractLsb' 8 5).toNat + 3) / 4

/-! ## BUF (20_memory.md) -/

/-- 20_memory.md section 3: a read returns the last byte written there, by the core or by the host, and a write changes no
other byte. That every write keeps the canonical form is about the model's form of BUF (log 5), not about the spec. -/
def Obligations.BufIsPlainMemory : Prop :=
  ∀ (m : Memory) (a : Nat) (v : Byte), Memory.wf m = true →
    (m.write a v).read a = v ∧ (∀ b : Nat, b ≠ a → (m.write a v).read b = m.read b) ∧
      Memory.wf (m.write a v) = true ∧
      ∀ s t : State, s.buf = m → s.hostStore a v = some t →
        t.buf.read a = v ∧ (∀ b : Nat, b ≠ a → t.buf.read b = s.buf.read b) ∧ { t with buf := s.buf } = s

/-! ## Encoding (30_encoding.md) -/

/-- R71 to R76, R82, R83: decoding the words of any instruction, with any words after them, gives that instruction with
every operand and leaves those words. -/
def Obligations.DecodeOfEncode : Prop :=
  ∀ (i : Instr) (rest : List Word32), i.wellFormed = true → decode (encode i ++ rest) = .ok (i, rest)

/-- R71 to R76, R80: words that decode are the encoding of the instruction followed by the rest, so each command has one
encoding. -/
def Obligations.EncodeOfDecode : Prop :=
  ∀ (ws rest : List Word32) (i : Instr), decode ws = .ok (i, rest) → ws = encode i ++ rest

/-- R73, R82: the opcode map: which OPs are legal, how many payload words each has, and how long each command is. -/
def Obligations.OpcodeMap : Prop :=
  (∀ op : BitVec 4, legalOpcode op = true ↔ 1 ≤ op.toNat ∧ op.toNat ≤ 4) ∧
    (∀ op : BitVec 4,
      payloadWords op =
        if op.toNat = 1 ∨ op.toNat = 2 then 4 else if op.toNat = 3 then 1 else if op.toNat = 4 then 2 else 0) ∧
    (∀ b : Block, (encode (.setKey b)).head? = some 0x00000001#32 ∧ (encode (.setKey b)).length = 5) ∧
    (∀ b : Block, (encode (.setIv b)).head? = some 0x00000002#32 ∧ (encode (.setIv b)).length = 5) ∧
    (∀ n : Word32, (encode (.nextChunk n)).head? = some 0x00000003#32 ∧ (encode (.nextChunk n)).length = 2) ∧
    ∀ a l : Word32, (encode (.apply a l)).head? = some 0x00000004#32 ∧ (encode (.apply a l)).length = 3

/-- R71, R82: a command is its header and exactly `P(OP)` words after it, and none is taken before they have all
arrived. -/
def Obligations.FramingTakesWholeCommands : Prop :=
  ∀ (ws p rest : List Word32) (h : Word32),
    takeCommand ws = some (h, p, rest) ↔ ws = h :: p ++ rest ∧ p.length = payloadWords (h.extractLsb' 0 4)

/-- R74: byte `4j + k` of a KEY or IV is bits `[8k+7:8k]` of payload word j. -/
def Obligations.PayloadIsLittleEndian : Prop :=
  (∀ (b : Block) (j k : Fin 4), (blockWord b j).extractLsb' (8 * k.val) 8 = b[4 * j.val + k.val]) ∧
    (∀ (w0 w1 w2 w3 : Word32) (j k : Fin 4),
      (unpackBlock w0 w1 w2 w3)[4 * j.val + k.val] = (#v[w0, w1, w2, w3] : Vector Word32 4)[j].extractLsb' (8 * k.val) 8) ∧
    ∀ (w0 w1 w2 w3 : Word32), packBlock (unpackBlock w0 w1 w2 w3) = [w0, w1, w2, w3]

/-- R80, R81: of whole commands exactly two kinds are rejected: OP 0 or 5..15 as ILLEGAL_OPCODE, and a legal OP with
reserved bits not 0 as RESERVED_BITS. -/
def Obligations.IllegalEncodingsAreTwoKinds : Prop :=
  ∀ (h : Word32) (p : List Word32), p.length = payloadWords (h.extractLsb' 0 4) →
    (decodeCommand h p = .error .illegalOpcode ↔ h.extractLsb' 0 4 = 0#4 ∨ 5 ≤ (h.extractLsb' 0 4).toNat) ∧
      (decodeCommand h p = .error .reservedBits ↔
        (1 ≤ (h.extractLsb' 0 4).toNat ∧ (h.extractLsb' 0 4).toNat ≤ 4) ∧ h.extractLsb' 4 28 ≠ 0#28) ∧
      decodeCommand h p ≠ .error .incomplete

/-- R77: the fields of a response header, and that it is `STATUS | CAUSE << 4 | LEN << 8 | OFF << 16`. -/
def Obligations.ResponseHeaderFields : Prop :=
  ∀ (status : Status) (cause : BitVec 4) (len : BitVec 5) (off : BitVec 4),
    let h := responseHeader status cause len off
    h.extractLsb' 0 2 = status.code ∧ h.extractLsb' 2 2 = 0#2 ∧ h.extractLsb' 4 4 = cause ∧ h.extractLsb' 8 5 = len ∧
      h.extractLsb' 13 3 = 0#3 ∧ h.extractLsb' 16 4 = off ∧ h.extractLsb' 20 12 = 0#12 ∧
      h = (status.code.setWidth 32 ||| (cause.setWidth 32 <<< 4) ||| (len.setWidth 32 <<< 8) |||
        (off.setWidth 32 <<< 16))

/-- R78 (30_encoding.md section 3): a chunk of `len` bytes is carried in `ceil(len/4)` words, byte m in bits
`[8(m mod 4)+7 : 8(m mod 4)]` of word `m div 4`, the unused bytes of the last word 0. -/
def Obligations.ChunkPayloadPacking : Prop :=
  ∀ bytes : List Byte,
    (packBytes bytes).length = (bytes.length + 3) / 4 ∧
      ∀ j k : Nat, k < 4 → j < (packBytes bytes).length →
        ((packBytes bytes).getD j 0#32).extractLsb' (8 * k) 8 = bytes.getD (4 * j + k) 0#8

/-- Section 6 of 30_encoding.md, its three assembled examples: their words decode to the commands they stand for. -/
def Obligations.ExampleWordsDecode : Prop :=
  decode [0x00000001#32, 0x03020100#32, 0x07060504#32, 0x0b0a0908#32, 0x0f0e0d0c#32] =
      .ok (.setKey #v[0x00#8, 0x01#8, 0x02#8, 0x03#8, 0x04#8, 0x05#8, 0x06#8, 0x07#8,
        0x08#8, 0x09#8, 0x0a#8, 0x0b#8, 0x0c#8, 0x0d#8, 0x0e#8, 0x0f#8], []) ∧
    decode [0x00000003#32, 0x00000010#32] = .ok (.nextChunk 16#32, []) ∧
    decode [0x00000004#32, 0x00000100#32, 0x00000014#32] = .ok (.apply 0x100#32 20#32, [])

/-! ## The channel and the host (30_encoding.md section 6; 20_memory.md section 3) -/

/-- R85 (30_encoding.md section 6), the pseudo-instruction BLOCK on a core without a latched fault: three steps take its
words off CMD and answer 0, 0, and the bare cipher of the input under the key. -/
def Obligations.BlockRunsOnTheChannel : Prop :=
  ∀ (s : State) (key input : Block) (rest : List Word32), s.rst = none → s.flt = false →
    s.cmd = encode (.setKey key) ++ encode (.setIv input) ++ encode (.nextChunk 16#32) ++ rest →
      ∃ t u v : State, step s = .next t ∧ step t = .next u ∧ step u = .next v ∧ v.cmd = rest ∧ v.flt = false ∧
        v.rsp = s.rsp ++ 0x00000000#32 :: 0x00000000#32 :: 0x00001000#32 :: packBlock (cipher input (keyExpansion key))

/-- 20_memory.md section 3 and 70_reset_and_hazards.md section 3: from the sending of an APPLY to the step that answers it
the host neither reads nor writes any byte of BUF, and so not its range; after its answer, with nothing more on CMD, it
reads every byte of BUF as the APPLY left it. That this holds from the first word of any command on, and while a reset is
pending, is the model's reading (log 15). -/
def Obligations.HostKeepsOffBufDuringACommand : Prop :=
  ∀ s : State,
    (∀ (addr len : Word32) (a : Nat) (v : Byte),
      (s.send (encode (.apply addr len))).hostLoad a = none ∧ (s.send (encode (.apply addr len))).hostStore a v = none) ∧
      (∀ (a : Nat) (v : Byte), s.cmd ≠ [] ∨ s.rst ≠ none ∨ s.bufSize ≤ a →
        s.hostLoad a = none ∧ s.hostStore a v = none) ∧
      (∀ (a : Nat) (v : Byte), s.cmd = [] → s.rst = none → a < s.bufSize →
        s.hostLoad a = some (s.buf.read a) ∧ s.hostStore a v = some { s with buf := s.buf.write a v }) ∧
      ∀ (addr len : Word32), s.rst = none → s.cmd = [] → s.flt = false → s.kv = true → s.sv = true →
        addr.toNat + len.toNat ≤ s.bufSize → Memory.wf s.buf = true →
          ∃ t : State, step (s.send (encode (.apply addr len))) = .next t ∧
            ∀ a : Nat, a < s.bufSize →
              t.hostLoad a =
                some (if addr.toNat ≤ a ∧ a < addr.toNat + len.toNat then
                    s.buf.read a ^^^ keystreamByte s (a - addr.toNat)
                  else s.buf.read a)

/-- What the host does between steps keeps the invariant of StepKeepsInv: sending words, asserting RST, and an admitted
write of BUF. -/
def Obligations.HostMovesKeepInv : Prop :=
  ∀ s : State, s.Inv →
    (∀ ws : List Word32, (s.send ws).Inv) ∧ (∀ m : Nat, (s.assertReset m).Inv) ∧
      ∀ (a : Nat) (v : Byte) (t : State), s.hostStore a v = some t → t.Inv
end

