-- ==== Sys2Proof/Laws/Decode.lean ====
section
/-! SUPPORT. Small lemmas of the channel's byte packing, the framing, and the decoder on the words of a command. -/

namespace Sys2Proof

/-! ## Byte packing -/

/-- Bit i of a packed word is bit `i mod 8` of its byte `i div 8`. -/
theorem packWord_getLsbD (b0 b1 b2 b3 : Byte) (i : Nat) :
    (packWord b0 b1 b2 b3).getLsbD i =
      if i < 8 then b0.getLsbD i else if i < 16 then b1.getLsbD (i - 8)
      else if i < 24 then b2.getLsbD (i - 16) else b3.getLsbD (i - 24) := by
  simp only [packWord, BitVec.getLsbD_or, BitVec.getLsbD_shiftLeft, BitVec.getLsbD_setWidth]
  rcases Nat.lt_or_ge i 32 with hi | hi
  · interval_cases i <;> simp
  · simp [BitVec.getLsbD_of_ge, show ¬ i < 8 by omega, show ¬ i < 16 by omega, show ¬ i < 24 by omega,
      show 8 ≤ i - 24 by omega, show ¬ i < 32 by omega, show 8 ≤ i by omega]

@[simp] theorem wordByte_packWord_zero (b0 b1 b2 b3 : Byte) : wordByte (packWord b0 b1 b2 b3) 0 = b0 := by
  refine BitVec.eq_of_getLsbD_eq fun i hi => ?_
  simp [wordByte, packWord_getLsbD, hi]

@[simp] theorem wordByte_packWord_one (b0 b1 b2 b3 : Byte) : wordByte (packWord b0 b1 b2 b3) 1 = b1 := by
  refine BitVec.eq_of_getLsbD_eq fun i hi => ?_
  simp [wordByte, packWord_getLsbD, hi, show 8 + i < 16 by omega]

@[simp] theorem wordByte_packWord_two (b0 b1 b2 b3 : Byte) : wordByte (packWord b0 b1 b2 b3) 2 = b2 := by
  refine BitVec.eq_of_getLsbD_eq fun i hi => ?_
  simp [wordByte, packWord_getLsbD, hi, show ¬ 16 + i < 8 by omega, show 16 + i < 24 by omega]

@[simp] theorem wordByte_packWord_three (b0 b1 b2 b3 : Byte) : wordByte (packWord b0 b1 b2 b3) 3 = b3 := by
  refine BitVec.eq_of_getLsbD_eq fun i hi => ?_
  simp [wordByte, packWord_getLsbD, hi, show ¬ 24 + i < 8 by omega, show ¬ 24 + i < 16 by omega]

/-- A word is the packing of its four bytes. -/
theorem packWord_wordByte (w : Word32) :
    packWord (wordByte w 0) (wordByte w 1) (wordByte w 2) (wordByte w 3) = w := by
  refine BitVec.eq_of_getLsbD_eq fun i hi => ?_
  rw [packWord_getLsbD]
  simp only [wordByte, BitVec.getLsbD_extractLsb']
  interval_cases i <;> simp

/-! ## Framing and decoding -/

/-- A whole command on the channel is taken whole. -/
theorem takeCommand_append {h : Word32} {p : List Word32} (rest : List Word32)
    (hp : p.length = payloadWords (opcode h)) : takeCommand (h :: p ++ rest) = some (h, p, rest) := by
  simp [takeCommand, ← hp]

/-- A command taken off the channel was its first words, and its payload has the length its OP gives. -/
theorem eq_of_takeCommand {ws p rest : List Word32} {h : Word32} (e : takeCommand ws = some (h, p, rest)) :
    ws = h :: p ++ rest ∧ p.length = payloadWords (opcode h) := by
  cases ws with
  | nil => simp [takeCommand] at e
  | cons g ws =>
    simp only [takeCommand] at e
    split at e
    · rename_i hle
      simp only [Option.some.injEq, Prod.mk.injEq] at e
      obtain ⟨rfl, rfl, rfl⟩ := e
      simp [hle]
    · cases e

/-- What the decoder says of a whole command is what it says of its header and payload. -/
theorem decode_append {h : Word32} {p : List Word32} (rest : List Word32)
    (hp : p.length = payloadWords (opcode h)) :
    decode (h :: p ++ rest) = (decodeCommand h p).map fun i => (i, rest) := by
  simp only [decode, takeCommand_append rest hp]
  cases decodeCommand h p <;> rfl

/-- Every opcode is 1..4 or reserved. -/
theorem legalOpcode_iff (op : BitVec 4) : legalOpcode op = true ↔ op = 1#4 ∨ op = 2#4 ∨ op = 3#4 ∨ op = 4#4 := by
  simp [legalOpcode, or_assoc]

/-- A legal opcode with a payload of its length is a command. -/
theorem decodePayload_ok {op : BitVec 4} {p : List Word32} (hl : legalOpcode op = true)
    (hp : p.length = payloadWords op) : ∃ i, decodePayload op p = .ok i := by
  rcases (legalOpcode_iff op).1 hl with rfl | rfl | rfl | rfl <;> simp only [payloadWords] at hp
  · match p, hp with
    | [_, _, _, _], _ => exact ⟨_, rfl⟩
  · match p, hp with
    | [_, _, _, _], _ => exact ⟨_, rfl⟩
  · match p, hp with
    | [_], _ => exact ⟨_, rfl⟩
  · match p, hp with
    | [_, _], _ => exact ⟨_, rfl⟩

/-- The three cases of a whole command: a reserved opcode, reserved bits, or a command. -/
theorem decodeCommand_cases {h : Word32} {p : List Word32} (hp : p.length = payloadWords (opcode h)) :
    (legalOpcode (opcode h) = false ∧ decodeCommand h p = .error .illegalOpcode) ∨
      (legalOpcode (opcode h) = true ∧ reservedField h ≠ 0#28 ∧ decodeCommand h p = .error .reservedBits) ∨
      (legalOpcode (opcode h) = true ∧ reservedField h = 0#28 ∧
        decodeCommand h p = decodePayload (opcode h) p ∧ ∃ i, decodeCommand h p = .ok i) := by
  cases hl : legalOpcode (opcode h) with
  | false => exact .inl ⟨rfl, by simp [decodeCommand, hl]⟩
  | true =>
    by_cases hr : reservedField h = 0#28
    · obtain ⟨i, hi⟩ := decodePayload_ok hl hp
      have e : decodeCommand h p = decodePayload (opcode h) p := by simp [decodeCommand, hl, hr]
      exact .inr (.inr ⟨rfl, hr, e, i, e.trans hi⟩)
    · exact .inr (.inl ⟨rfl, hr, by simp [decodeCommand, hl, hr]⟩)

end Sys2Proof
end

