-- ==== Sys2Proof/Laws/Memory.lean ====
section
/-! SUPPORT. BUF as a memory: a read after a write, the canonical form every write keeps, and equality of canonical
memories (20_memory.md R58). -/

namespace Sys2Proof.Machine

@[simp] theorem Memory.read_nil (a : Nat) : Memory.read [] a = Memory.background := rfl

@[simp] theorem Memory.read_cons (b : Nat) (x : Byte) (m : Memory) (a : Nat) :
    Memory.read ((b, x) :: m) a = if a = b then x else Memory.read m a := rfl

@[simp] theorem Memory.wf_nil : Memory.wf [] = true := rfl

/-- The canonical form of a memory with a first cell. -/
theorem Memory.wf_cons {b : Nat} {x : Byte} {m : Memory} :
    Memory.wf ((b, x) :: m) = true ↔
      x ≠ Memory.background ∧ (∀ c ∈ m, b < c.1) ∧ Memory.wf m = true := by
  simp [Memory.wf, and_assoc]

/-- An address below every cell reads as the background. -/
theorem Memory.read_below {m : Memory} {a : Nat} (h : ∀ c ∈ m, a < c.1) :
    Memory.read m a = Memory.background := by
  induction m with
  | nil => rfl
  | cons c m ih =>
    obtain ⟨b, x⟩ := c
    have hb : a < b := h (b, x) (by simp)
    have : a ≠ b := by omega
    simp [this, ih fun c hc => h c (by simp [hc])]

/-- A read of the address written gives the value written. -/
theorem Memory.read_write_same {m : Memory} (hm : Memory.wf m = true) (a : Nat) (v : Byte) :
    (m.write a v).read a = v := by
  induction m with
  | nil => simp only [Memory.write]; split <;> simp_all
  | cons c m ih =>
    obtain ⟨b, x⟩ := c
    obtain ⟨_, hlt, hwf⟩ := Memory.wf_cons.1 hm
    simp only [Memory.write]
    split
    · rename_i hab
      have hne : a ≠ b := by omega
      split
      · rename_i hv
        have hbelow := Memory.read_below (m := m) (a := a) fun c hc => by have := hlt c hc; omega
        simp [hne, hv, hbelow]
      · simp
    · split
      · rename_i hab
        subst hab
        split
        · rename_i hv; rw [hv]; exact Memory.read_below hlt
        · simp
      · rename_i _ hne; simp [hne, ih hwf]

/-- A write leaves every other address alone. -/
theorem Memory.read_write_other (m : Memory) {a b : Nat} (h : b ≠ a) (v : Byte) :
    (m.write a v).read b = m.read b := by
  induction m with
  | nil => simp only [Memory.write]; split <;> simp [h]
  | cons c m ih =>
    obtain ⟨d, x⟩ := c
    simp only [Memory.write]
    split
    · split <;> simp [h]
    · split
      · rename_i had
        subst had
        split <;> simp [h]
      · simp [ih]

/-- The cells after a write: the cell written, or one that was there. -/
theorem Memory.mem_write {m : Memory} {a : Nat} {v : Byte} {c : Host.Cell} (h : c ∈ m.write a v) :
    c.1 = a ∨ c ∈ m := by
  induction m with
  | nil =>
    simp only [Memory.write] at h
    split at h <;> simp_all
  | cons d m ih =>
    obtain ⟨b, x⟩ := d
    simp only [Memory.write] at h
    split at h
    · split at h
      · exact .inr h
      · rcases List.mem_cons.1 h with rfl | h
        · exact .inl rfl
        · exact .inr h
    · split at h
      · split at h
        · exact .inr (by simp [h])
        · rcases List.mem_cons.1 h with rfl | h
          · exact .inl rfl
          · exact .inr (by simp [h])
      · rcases List.mem_cons.1 h with rfl | h
        · exact .inr (by simp)
        · rcases ih h with h | h
          · exact .inl h
          · exact .inr (by simp [h])

/-- A write keeps the canonical form. -/
theorem Memory.wf_write {m : Memory} (hm : Memory.wf m = true) (a : Nat) (v : Byte) :
    Memory.wf (m.write a v) = true := by
  induction m with
  | nil => simp only [Memory.write]; split <;> simp_all [Memory.wf]
  | cons c m ih =>
    obtain ⟨b, x⟩ := c
    obtain ⟨hx, hlt, hwf⟩ := Memory.wf_cons.1 hm
    simp only [Memory.write]
    split
    · rename_i hab
      split
      · exact hm
      · rename_i hv
        refine Memory.wf_cons.2 ⟨hv, fun c hc => ?_, hm⟩
        rcases List.mem_cons.1 hc with rfl | hc
        · exact hab
        · have := hlt c hc; omega
    · split
      · rename_i hab
        subst hab
        split
        · exact hwf
        · rename_i hv; exact Memory.wf_cons.2 ⟨hv, hlt, hwf⟩
      · refine Memory.wf_cons.2 ⟨hx, fun c hc => ?_, ih hwf⟩
        rcases Memory.mem_write hc with h | h
        · omega
        · exact hlt c h

/-- Two canonical memories that read the same everywhere are equal. -/
theorem Memory.eq_of_read {m n : Memory} (hm : Memory.wf m = true) (hn : Memory.wf n = true)
    (h : ∀ a, m.read a = n.read a) : m = n := by
  induction m generalizing n with
  | nil =>
    cases n with
    | nil => rfl
    | cons d n =>
      obtain ⟨b, y⟩ := d
      exact absurd (by simpa using (h b).symm) (Memory.wf_cons.1 hn).1
  | cons c m ih =>
    obtain ⟨a, x⟩ := c
    obtain ⟨hx, hla, hwm⟩ := Memory.wf_cons.1 hm
    cases n with
    | nil => exact absurd (by simpa using h a) hx
    | cons d n =>
      obtain ⟨b, y⟩ := d
      obtain ⟨hy, hlb, hwn⟩ := Memory.wf_cons.1 hn
      have hab : a = b := by
        rcases Nat.lt_trichotomy a b with hlt | heq | hgt
        · have hr := h a
          have hne : a ≠ b := by omega
          rw [Memory.read_cons, Memory.read_cons, if_pos rfl, if_neg hne,
            Memory.read_below fun c hc => by have := hlb c hc; omega] at hr
          exact absurd hr hx
        · exact heq
        · have hr := h b
          have hne : b ≠ a := by omega
          rw [Memory.read_cons, Memory.read_cons, if_pos rfl, if_neg hne,
            Memory.read_below fun c hc => by have := hla c hc; omega] at hr
          exact absurd hr.symm hy
      subst hab
      have hxy : x = y := by simpa using h a
      subst hxy
      congr 1
      refine ih hwm hwn fun e => ?_
      by_cases hea : e = a
      · subst hea; rw [Memory.read_below hla, Memory.read_below hlb]
      · simpa [hea] using h e

/-! ## XOR of a byte sequence into BUF -/

/-- What `xorBytes` does to the byte read at any address. -/
theorem xorBytes_read {ks : List Byte} {a : Nat} {m : Memory} (hm : Memory.wf m = true) (b : Nat) :
    (xorBytes ks a m).read b =
      if a ≤ b ∧ b < a + ks.length then m.read b ^^^ ks.getD (b - a) 0#8 else m.read b := by
  induction ks generalizing a m with
  | nil => simp [xorBytes]
  | cons k ks ih =>
    rw [xorBytes, ih (Memory.wf_write hm _ _)]
    by_cases hb : b = a
    · subst hb; simp [Memory.read_write_same hm]
    · rw [Memory.read_write_other m hb]
      by_cases hlt : a + 1 ≤ b ∧ b < a + 1 + ks.length
      · obtain ⟨j, rfl⟩ : ∃ j, b = a + 1 + j := ⟨b - (a + 1), by omega⟩
        have h1 : a + 1 + j - a = j + 1 := by omega
        have h2 : a + 1 + j - (a + 1) = j := by omega
        rw [if_pos hlt, if_pos (by simp; omega), h1, h2]; rfl
      · rw [if_neg hlt, if_neg (by simp; omega)]

/-- `xorBytes` keeps the canonical form. -/
theorem xorBytes_wf {ks : List Byte} {a : Nat} {m : Memory} (hm : Memory.wf m = true) :
    Memory.wf (xorBytes ks a m) = true := by
  induction ks generalizing a m with
  | nil => exact hm
  | cons k ks ih => exact ih (Memory.wf_write hm _ _)

/-- `xorBytes` writes only its own addresses. -/
theorem mem_xorBytes {ks : List Byte} {a : Nat} {m : Memory} {c : Host.Cell} (h : c ∈ xorBytes ks a m) :
    (a ≤ c.1 ∧ c.1 < a + ks.length) ∨ c ∈ m := by
  induction ks generalizing a m with
  | nil => exact .inr h
  | cons k ks ih =>
    rcases ih h with h | h
    · exact .inl ⟨by omega, by simp; omega⟩
    · rcases Memory.mem_write h with h | h
      · exact .inl ⟨by omega, by simp; omega⟩
      · exact .inr h

end Sys2Proof.Machine
end

