-- ==== Sys2Proof/Laws/State.lean ====
section
/-! SUPPORT. One lemma per field per update of State, each true by rfl, so that no proof unfolds a record update. -/

namespace Sys2Proof.Machine

/-! ## setW -/

@[simp] theorem State.setW_w (s : State) (v : KeyWords) : (s.setW v).w = v := rfl
@[simp] theorem State.setW_st (s : State) (v : KeyWords) : (s.setW v).st = s.st := rfl
@[simp] theorem State.setW_scr (s : State) (v : KeyWords) : (s.setW v).scr = s.scr := rfl
@[simp] theorem State.setW_pos (s : State) (v : KeyWords) : (s.setW v).pos = s.pos := rfl
@[simp] theorem State.setW_kv (s : State) (v : KeyWords) : (s.setW v).kv = s.kv := rfl
@[simp] theorem State.setW_sv (s : State) (v : KeyWords) : (s.setW v).sv = s.sv := rfl
@[simp] theorem State.setW_flt (s : State) (v : KeyWords) : (s.setW v).flt = s.flt := rfl
@[simp] theorem State.setW_cause (s : State) (v : KeyWords) : (s.setW v).cause = s.cause := rfl
@[simp] theorem State.setW_bufTop (s : State) (v : KeyWords) : (s.setW v).bufTop = s.bufTop := rfl
@[simp] theorem State.setW_buf (s : State) (v : KeyWords) : (s.setW v).buf = s.buf := rfl
@[simp] theorem State.setW_cmd (s : State) (v : KeyWords) : (s.setW v).cmd = s.cmd := rfl
@[simp] theorem State.setW_rsp (s : State) (v : KeyWords) : (s.setW v).rsp = s.rsp := rfl
@[simp] theorem State.setW_rst (s : State) (v : KeyWords) : (s.setW v).rst = s.rst := rfl
@[simp] theorem State.setW_resets (s : State) (v : KeyWords) : (s.setW v).resets = s.resets := rfl
@[simp] theorem State.setW_bufSize (s : State) (v : KeyWords) : (s.setW v).bufSize = s.bufSize := rfl

/-! ## setSt -/

@[simp] theorem State.setSt_w (s : State) (v : Block) : (s.setSt v).w = s.w := rfl
@[simp] theorem State.setSt_st (s : State) (v : Block) : (s.setSt v).st = v := rfl
@[simp] theorem State.setSt_scr (s : State) (v : Block) : (s.setSt v).scr = s.scr := rfl
@[simp] theorem State.setSt_pos (s : State) (v : Block) : (s.setSt v).pos = s.pos := rfl
@[simp] theorem State.setSt_kv (s : State) (v : Block) : (s.setSt v).kv = s.kv := rfl
@[simp] theorem State.setSt_sv (s : State) (v : Block) : (s.setSt v).sv = s.sv := rfl
@[simp] theorem State.setSt_flt (s : State) (v : Block) : (s.setSt v).flt = s.flt := rfl
@[simp] theorem State.setSt_cause (s : State) (v : Block) : (s.setSt v).cause = s.cause := rfl
@[simp] theorem State.setSt_bufTop (s : State) (v : Block) : (s.setSt v).bufTop = s.bufTop := rfl
@[simp] theorem State.setSt_buf (s : State) (v : Block) : (s.setSt v).buf = s.buf := rfl
@[simp] theorem State.setSt_cmd (s : State) (v : Block) : (s.setSt v).cmd = s.cmd := rfl
@[simp] theorem State.setSt_rsp (s : State) (v : Block) : (s.setSt v).rsp = s.rsp := rfl
@[simp] theorem State.setSt_rst (s : State) (v : Block) : (s.setSt v).rst = s.rst := rfl
@[simp] theorem State.setSt_resets (s : State) (v : Block) : (s.setSt v).resets = s.resets := rfl
@[simp] theorem State.setSt_bufSize (s : State) (v : Block) : (s.setSt v).bufSize = s.bufSize := rfl

/-! ## setScr -/

@[simp] theorem State.setScr_w (s : State) (v : Block) : (s.setScr v).w = s.w := rfl
@[simp] theorem State.setScr_st (s : State) (v : Block) : (s.setScr v).st = s.st := rfl
@[simp] theorem State.setScr_scr (s : State) (v : Block) : (s.setScr v).scr = v := rfl
@[simp] theorem State.setScr_pos (s : State) (v : Block) : (s.setScr v).pos = s.pos := rfl
@[simp] theorem State.setScr_kv (s : State) (v : Block) : (s.setScr v).kv = s.kv := rfl
@[simp] theorem State.setScr_sv (s : State) (v : Block) : (s.setScr v).sv = s.sv := rfl
@[simp] theorem State.setScr_flt (s : State) (v : Block) : (s.setScr v).flt = s.flt := rfl
@[simp] theorem State.setScr_cause (s : State) (v : Block) : (s.setScr v).cause = s.cause := rfl
@[simp] theorem State.setScr_bufTop (s : State) (v : Block) : (s.setScr v).bufTop = s.bufTop := rfl
@[simp] theorem State.setScr_buf (s : State) (v : Block) : (s.setScr v).buf = s.buf := rfl
@[simp] theorem State.setScr_cmd (s : State) (v : Block) : (s.setScr v).cmd = s.cmd := rfl
@[simp] theorem State.setScr_rsp (s : State) (v : Block) : (s.setScr v).rsp = s.rsp := rfl
@[simp] theorem State.setScr_rst (s : State) (v : Block) : (s.setScr v).rst = s.rst := rfl
@[simp] theorem State.setScr_resets (s : State) (v : Block) : (s.setScr v).resets = s.resets := rfl
@[simp] theorem State.setScr_bufSize (s : State) (v : Block) : (s.setScr v).bufSize = s.bufSize := rfl

/-! ## setPos -/

@[simp] theorem State.setPos_w (s : State) (v : Fin 17) : (s.setPos v).w = s.w := rfl
@[simp] theorem State.setPos_st (s : State) (v : Fin 17) : (s.setPos v).st = s.st := rfl
@[simp] theorem State.setPos_scr (s : State) (v : Fin 17) : (s.setPos v).scr = s.scr := rfl
@[simp] theorem State.setPos_pos (s : State) (v : Fin 17) : (s.setPos v).pos = v := rfl
@[simp] theorem State.setPos_kv (s : State) (v : Fin 17) : (s.setPos v).kv = s.kv := rfl
@[simp] theorem State.setPos_sv (s : State) (v : Fin 17) : (s.setPos v).sv = s.sv := rfl
@[simp] theorem State.setPos_flt (s : State) (v : Fin 17) : (s.setPos v).flt = s.flt := rfl
@[simp] theorem State.setPos_cause (s : State) (v : Fin 17) : (s.setPos v).cause = s.cause := rfl
@[simp] theorem State.setPos_bufTop (s : State) (v : Fin 17) : (s.setPos v).bufTop = s.bufTop := rfl
@[simp] theorem State.setPos_buf (s : State) (v : Fin 17) : (s.setPos v).buf = s.buf := rfl
@[simp] theorem State.setPos_cmd (s : State) (v : Fin 17) : (s.setPos v).cmd = s.cmd := rfl
@[simp] theorem State.setPos_rsp (s : State) (v : Fin 17) : (s.setPos v).rsp = s.rsp := rfl
@[simp] theorem State.setPos_rst (s : State) (v : Fin 17) : (s.setPos v).rst = s.rst := rfl
@[simp] theorem State.setPos_resets (s : State) (v : Fin 17) : (s.setPos v).resets = s.resets := rfl
@[simp] theorem State.setPos_bufSize (s : State) (v : Fin 17) : (s.setPos v).bufSize = s.bufSize := rfl

/-! ## raiseKv -/

@[simp] theorem State.raiseKv_w (s : State) : (s.raiseKv).w = s.w := rfl
@[simp] theorem State.raiseKv_st (s : State) : (s.raiseKv).st = s.st := rfl
@[simp] theorem State.raiseKv_scr (s : State) : (s.raiseKv).scr = s.scr := rfl
@[simp] theorem State.raiseKv_pos (s : State) : (s.raiseKv).pos = s.pos := rfl
@[simp] theorem State.raiseKv_kv (s : State) : (s.raiseKv).kv = true := rfl
@[simp] theorem State.raiseKv_sv (s : State) : (s.raiseKv).sv = s.sv := rfl
@[simp] theorem State.raiseKv_flt (s : State) : (s.raiseKv).flt = s.flt := rfl
@[simp] theorem State.raiseKv_cause (s : State) : (s.raiseKv).cause = s.cause := rfl
@[simp] theorem State.raiseKv_bufTop (s : State) : (s.raiseKv).bufTop = s.bufTop := rfl
@[simp] theorem State.raiseKv_buf (s : State) : (s.raiseKv).buf = s.buf := rfl
@[simp] theorem State.raiseKv_cmd (s : State) : (s.raiseKv).cmd = s.cmd := rfl
@[simp] theorem State.raiseKv_rsp (s : State) : (s.raiseKv).rsp = s.rsp := rfl
@[simp] theorem State.raiseKv_rst (s : State) : (s.raiseKv).rst = s.rst := rfl
@[simp] theorem State.raiseKv_resets (s : State) : (s.raiseKv).resets = s.resets := rfl
@[simp] theorem State.raiseKv_bufSize (s : State) : (s.raiseKv).bufSize = s.bufSize := rfl

/-! ## raiseSv -/

@[simp] theorem State.raiseSv_w (s : State) : (s.raiseSv).w = s.w := rfl
@[simp] theorem State.raiseSv_st (s : State) : (s.raiseSv).st = s.st := rfl
@[simp] theorem State.raiseSv_scr (s : State) : (s.raiseSv).scr = s.scr := rfl
@[simp] theorem State.raiseSv_pos (s : State) : (s.raiseSv).pos = s.pos := rfl
@[simp] theorem State.raiseSv_kv (s : State) : (s.raiseSv).kv = s.kv := rfl
@[simp] theorem State.raiseSv_sv (s : State) : (s.raiseSv).sv = true := rfl
@[simp] theorem State.raiseSv_flt (s : State) : (s.raiseSv).flt = s.flt := rfl
@[simp] theorem State.raiseSv_cause (s : State) : (s.raiseSv).cause = s.cause := rfl
@[simp] theorem State.raiseSv_bufTop (s : State) : (s.raiseSv).bufTop = s.bufTop := rfl
@[simp] theorem State.raiseSv_buf (s : State) : (s.raiseSv).buf = s.buf := rfl
@[simp] theorem State.raiseSv_cmd (s : State) : (s.raiseSv).cmd = s.cmd := rfl
@[simp] theorem State.raiseSv_rsp (s : State) : (s.raiseSv).rsp = s.rsp := rfl
@[simp] theorem State.raiseSv_rst (s : State) : (s.raiseSv).rst = s.rst := rfl
@[simp] theorem State.raiseSv_resets (s : State) : (s.raiseSv).resets = s.resets := rfl
@[simp] theorem State.raiseSv_bufSize (s : State) : (s.raiseSv).bufSize = s.bufSize := rfl

/-! ## latch -/

@[simp] theorem State.latch_w (s : State) (c : FaultCause) : (s.latch c).w = s.w := rfl
@[simp] theorem State.latch_st (s : State) (c : FaultCause) : (s.latch c).st = s.st := rfl
@[simp] theorem State.latch_scr (s : State) (c : FaultCause) : (s.latch c).scr = s.scr := rfl
@[simp] theorem State.latch_pos (s : State) (c : FaultCause) : (s.latch c).pos = s.pos := rfl
@[simp] theorem State.latch_kv (s : State) (c : FaultCause) : (s.latch c).kv = s.kv := rfl
@[simp] theorem State.latch_sv (s : State) (c : FaultCause) : (s.latch c).sv = s.sv := rfl
@[simp] theorem State.latch_flt (s : State) (c : FaultCause) : (s.latch c).flt = true := rfl
@[simp] theorem State.latch_cause (s : State) (c : FaultCause) : (s.latch c).cause = c.code := rfl
@[simp] theorem State.latch_bufTop (s : State) (c : FaultCause) : (s.latch c).bufTop = s.bufTop := rfl
@[simp] theorem State.latch_buf (s : State) (c : FaultCause) : (s.latch c).buf = s.buf := rfl
@[simp] theorem State.latch_cmd (s : State) (c : FaultCause) : (s.latch c).cmd = s.cmd := rfl
@[simp] theorem State.latch_rsp (s : State) (c : FaultCause) : (s.latch c).rsp = s.rsp := rfl
@[simp] theorem State.latch_rst (s : State) (c : FaultCause) : (s.latch c).rst = s.rst := rfl
@[simp] theorem State.latch_resets (s : State) (c : FaultCause) : (s.latch c).resets = s.resets := rfl
@[simp] theorem State.latch_bufSize (s : State) (c : FaultCause) : (s.latch c).bufSize = s.bufSize := rfl

/-! ## setBuf -/

@[simp] theorem State.setBuf_w (s : State) (v : Memory) : (s.setBuf v).w = s.w := rfl
@[simp] theorem State.setBuf_st (s : State) (v : Memory) : (s.setBuf v).st = s.st := rfl
@[simp] theorem State.setBuf_scr (s : State) (v : Memory) : (s.setBuf v).scr = s.scr := rfl
@[simp] theorem State.setBuf_pos (s : State) (v : Memory) : (s.setBuf v).pos = s.pos := rfl
@[simp] theorem State.setBuf_kv (s : State) (v : Memory) : (s.setBuf v).kv = s.kv := rfl
@[simp] theorem State.setBuf_sv (s : State) (v : Memory) : (s.setBuf v).sv = s.sv := rfl
@[simp] theorem State.setBuf_flt (s : State) (v : Memory) : (s.setBuf v).flt = s.flt := rfl
@[simp] theorem State.setBuf_cause (s : State) (v : Memory) : (s.setBuf v).cause = s.cause := rfl
@[simp] theorem State.setBuf_bufTop (s : State) (v : Memory) : (s.setBuf v).bufTop = s.bufTop := rfl
@[simp] theorem State.setBuf_buf (s : State) (v : Memory) : (s.setBuf v).buf = v := rfl
@[simp] theorem State.setBuf_cmd (s : State) (v : Memory) : (s.setBuf v).cmd = s.cmd := rfl
@[simp] theorem State.setBuf_rsp (s : State) (v : Memory) : (s.setBuf v).rsp = s.rsp := rfl
@[simp] theorem State.setBuf_rst (s : State) (v : Memory) : (s.setBuf v).rst = s.rst := rfl
@[simp] theorem State.setBuf_resets (s : State) (v : Memory) : (s.setBuf v).resets = s.resets := rfl
@[simp] theorem State.setBuf_bufSize (s : State) (v : Memory) : (s.setBuf v).bufSize = s.bufSize := rfl

/-! ## setCmd -/

@[simp] theorem State.setCmd_w (s : State) (v : List Word32) : (s.setCmd v).w = s.w := rfl
@[simp] theorem State.setCmd_st (s : State) (v : List Word32) : (s.setCmd v).st = s.st := rfl
@[simp] theorem State.setCmd_scr (s : State) (v : List Word32) : (s.setCmd v).scr = s.scr := rfl
@[simp] theorem State.setCmd_pos (s : State) (v : List Word32) : (s.setCmd v).pos = s.pos := rfl
@[simp] theorem State.setCmd_kv (s : State) (v : List Word32) : (s.setCmd v).kv = s.kv := rfl
@[simp] theorem State.setCmd_sv (s : State) (v : List Word32) : (s.setCmd v).sv = s.sv := rfl
@[simp] theorem State.setCmd_flt (s : State) (v : List Word32) : (s.setCmd v).flt = s.flt := rfl
@[simp] theorem State.setCmd_cause (s : State) (v : List Word32) : (s.setCmd v).cause = s.cause := rfl
@[simp] theorem State.setCmd_bufTop (s : State) (v : List Word32) : (s.setCmd v).bufTop = s.bufTop := rfl
@[simp] theorem State.setCmd_buf (s : State) (v : List Word32) : (s.setCmd v).buf = s.buf := rfl
@[simp] theorem State.setCmd_cmd (s : State) (v : List Word32) : (s.setCmd v).cmd = v := rfl
@[simp] theorem State.setCmd_rsp (s : State) (v : List Word32) : (s.setCmd v).rsp = s.rsp := rfl
@[simp] theorem State.setCmd_rst (s : State) (v : List Word32) : (s.setCmd v).rst = s.rst := rfl
@[simp] theorem State.setCmd_resets (s : State) (v : List Word32) : (s.setCmd v).resets = s.resets := rfl
@[simp] theorem State.setCmd_bufSize (s : State) (v : List Word32) : (s.setCmd v).bufSize = s.bufSize := rfl

/-! ## respond -/

@[simp] theorem State.respond_w (s : State) (ws : List Word32) : (s.respond ws).w = s.w := rfl
@[simp] theorem State.respond_st (s : State) (ws : List Word32) : (s.respond ws).st = s.st := rfl
@[simp] theorem State.respond_scr (s : State) (ws : List Word32) : (s.respond ws).scr = s.scr := rfl
@[simp] theorem State.respond_pos (s : State) (ws : List Word32) : (s.respond ws).pos = s.pos := rfl
@[simp] theorem State.respond_kv (s : State) (ws : List Word32) : (s.respond ws).kv = s.kv := rfl
@[simp] theorem State.respond_sv (s : State) (ws : List Word32) : (s.respond ws).sv = s.sv := rfl
@[simp] theorem State.respond_flt (s : State) (ws : List Word32) : (s.respond ws).flt = s.flt := rfl
@[simp] theorem State.respond_cause (s : State) (ws : List Word32) : (s.respond ws).cause = s.cause := rfl
@[simp] theorem State.respond_bufTop (s : State) (ws : List Word32) : (s.respond ws).bufTop = s.bufTop := rfl
@[simp] theorem State.respond_buf (s : State) (ws : List Word32) : (s.respond ws).buf = s.buf := rfl
@[simp] theorem State.respond_cmd (s : State) (ws : List Word32) : (s.respond ws).cmd = s.cmd := rfl
@[simp] theorem State.respond_rsp (s : State) (ws : List Word32) : (s.respond ws).rsp = s.rsp ++ ws := rfl
@[simp] theorem State.respond_rst (s : State) (ws : List Word32) : (s.respond ws).rst = s.rst := rfl
@[simp] theorem State.respond_resets (s : State) (ws : List Word32) : (s.respond ws).resets = s.resets := rfl
@[simp] theorem State.respond_bufSize (s : State) (ws : List Word32) : (s.respond ws).bufSize = s.bufSize := rfl

/-! ## send -/

@[simp] theorem State.send_w (s : State) (ws : List Word32) : (s.send ws).w = s.w := rfl
@[simp] theorem State.send_st (s : State) (ws : List Word32) : (s.send ws).st = s.st := rfl
@[simp] theorem State.send_scr (s : State) (ws : List Word32) : (s.send ws).scr = s.scr := rfl
@[simp] theorem State.send_pos (s : State) (ws : List Word32) : (s.send ws).pos = s.pos := rfl
@[simp] theorem State.send_kv (s : State) (ws : List Word32) : (s.send ws).kv = s.kv := rfl
@[simp] theorem State.send_sv (s : State) (ws : List Word32) : (s.send ws).sv = s.sv := rfl
@[simp] theorem State.send_flt (s : State) (ws : List Word32) : (s.send ws).flt = s.flt := rfl
@[simp] theorem State.send_cause (s : State) (ws : List Word32) : (s.send ws).cause = s.cause := rfl
@[simp] theorem State.send_bufTop (s : State) (ws : List Word32) : (s.send ws).bufTop = s.bufTop := rfl
@[simp] theorem State.send_buf (s : State) (ws : List Word32) : (s.send ws).buf = s.buf := rfl
@[simp] theorem State.send_cmd (s : State) (ws : List Word32) : (s.send ws).cmd = s.cmd ++ ws := rfl
@[simp] theorem State.send_rsp (s : State) (ws : List Word32) : (s.send ws).rsp = s.rsp := rfl
@[simp] theorem State.send_rst (s : State) (ws : List Word32) : (s.send ws).rst = s.rst := rfl
@[simp] theorem State.send_resets (s : State) (ws : List Word32) : (s.send ws).resets = s.resets := rfl
@[simp] theorem State.send_bufSize (s : State) (ws : List Word32) : (s.send ws).bufSize = s.bufSize := rfl

/-! ## assertReset -/

@[simp] theorem State.assertReset_w (s : State) (m : Nat) : (s.assertReset m).w = s.w := rfl
@[simp] theorem State.assertReset_st (s : State) (m : Nat) : (s.assertReset m).st = s.st := rfl
@[simp] theorem State.assertReset_scr (s : State) (m : Nat) : (s.assertReset m).scr = s.scr := rfl
@[simp] theorem State.assertReset_pos (s : State) (m : Nat) : (s.assertReset m).pos = s.pos := rfl
@[simp] theorem State.assertReset_kv (s : State) (m : Nat) : (s.assertReset m).kv = s.kv := rfl
@[simp] theorem State.assertReset_sv (s : State) (m : Nat) : (s.assertReset m).sv = s.sv := rfl
@[simp] theorem State.assertReset_flt (s : State) (m : Nat) : (s.assertReset m).flt = s.flt := rfl
@[simp] theorem State.assertReset_cause (s : State) (m : Nat) : (s.assertReset m).cause = s.cause := rfl
@[simp] theorem State.assertReset_bufTop (s : State) (m : Nat) : (s.assertReset m).bufTop = s.bufTop := rfl
@[simp] theorem State.assertReset_buf (s : State) (m : Nat) : (s.assertReset m).buf = s.buf := rfl
@[simp] theorem State.assertReset_cmd (s : State) (m : Nat) : (s.assertReset m).cmd = s.cmd := rfl
@[simp] theorem State.assertReset_rsp (s : State) (m : Nat) : (s.assertReset m).rsp = s.rsp := rfl
@[simp] theorem State.assertReset_rst (s : State) (m : Nat) : (s.assertReset m).rst = some m := rfl
@[simp] theorem State.assertReset_resets (s : State) (m : Nat) : (s.assertReset m).resets = s.resets := rfl
@[simp] theorem State.assertReset_bufSize (s : State) (m : Nat) : (s.assertReset m).bufSize = s.bufSize := rfl

/-! ## reset -/

@[simp] theorem State.resetWith_w (top : BitVec 32) (m : Memory) (k : Nat) :
    (State.resetWith top m k).w = Config.resetW k := rfl
@[simp] theorem State.resetWith_st (top : BitVec 32) (m : Memory) (k : Nat) :
    (State.resetWith top m k).st = Config.resetSt k := rfl
@[simp] theorem State.resetWith_scr (top : BitVec 32) (m : Memory) (k : Nat) :
    (State.resetWith top m k).scr = Config.resetScr k := rfl
@[simp] theorem State.resetWith_pos (top : BitVec 32) (m : Memory) (k : Nat) :
    (State.resetWith top m k).pos = Config.resetPos k := rfl
@[simp] theorem State.resetWith_kv (top : BitVec 32) (m : Memory) (k : Nat) :
    (State.resetWith top m k).kv = false := rfl
@[simp] theorem State.resetWith_sv (top : BitVec 32) (m : Memory) (k : Nat) :
    (State.resetWith top m k).sv = false := rfl
@[simp] theorem State.resetWith_flt (top : BitVec 32) (m : Memory) (k : Nat) :
    (State.resetWith top m k).flt = false := rfl
@[simp] theorem State.resetWith_cause (top : BitVec 32) (m : Memory) (k : Nat) :
    (State.resetWith top m k).cause = 0#4 := rfl
@[simp] theorem State.resetWith_bufTop (top : BitVec 32) (m : Memory) (k : Nat) :
    (State.resetWith top m k).bufTop = top := rfl
@[simp] theorem State.resetWith_buf (top : BitVec 32) (m : Memory) (k : Nat) :
    (State.resetWith top m k).buf = m := rfl
@[simp] theorem State.resetWith_cmd (top : BitVec 32) (m : Memory) (k : Nat) :
    (State.resetWith top m k).cmd = [] := rfl
@[simp] theorem State.resetWith_rsp (top : BitVec 32) (m : Memory) (k : Nat) :
    (State.resetWith top m k).rsp = [] := rfl
@[simp] theorem State.resetWith_rst (top : BitVec 32) (m : Memory) (k : Nat) :
    (State.resetWith top m k).rst = none := rfl
@[simp] theorem State.resetWith_resets (top : BitVec 32) (m : Memory) (k : Nat) :
    (State.resetWith top m k).resets = k := rfl

end Sys2Proof.Machine
end

