-- ==== Sys2Proof/Laws/Environment.lean ====
section
/-! SUPPORT. The host's access to BUF, once each: when it is admitted and what it does (20_memory.md R57, R58;
93_implementation_defined.md U22). -/

namespace Sys2Proof.Machine

/-- The host may touch BUF exactly when CMD is empty and no reset is pending. -/
theorem State.hostOwnsBuf_iff {s : State} : s.hostOwnsBuf = true ↔ s.cmd = [] ∧ s.rst = none := by
  simp [State.hostOwnsBuf]

/-- A host read that is admitted: when, and what it gives. -/
theorem State.hostLoad_eq_some {s : State} {a : Nat} {v : Byte} :
    s.hostLoad a = some v ↔ (s.cmd = [] ∧ s.rst = none) ∧ a < s.bufSize ∧ v = s.buf.read a := by
  rw [State.hostLoad, Option.ite_none_right_eq_some, State.hostOwnsBuf_iff, Option.some.injEq, and_assoc, @eq_comm _ v]

/-- A host write that is admitted: when, and the state after it. -/
theorem State.hostStore_eq_some {s t : State} {a : Nat} {v : Byte} :
    s.hostStore a v = some t ↔
      (s.cmd = [] ∧ s.rst = none) ∧ a < s.bufSize ∧ t = s.setBuf (s.buf.write a v) := by
  rw [State.hostStore, Option.ite_none_right_eq_some, State.hostOwnsBuf_iff, Option.some.injEq, and_assoc, @eq_comm _ t]

/-- While a command is outstanding or a reset pending, the host reads no byte of BUF. -/
theorem State.hostLoad_eq_none {s : State} (h : s.cmd ≠ [] ∨ s.rst ≠ none) (a : Nat) : s.hostLoad a = none :=
  if_neg fun ⟨ho, _⟩ => h.elim (· (State.hostOwnsBuf_iff.1 ho).1) (· (State.hostOwnsBuf_iff.1 ho).2)

/-- While a command is outstanding or a reset pending, the host writes no byte of BUF. -/
theorem State.hostStore_eq_none {s : State} (h : s.cmd ≠ [] ∨ s.rst ≠ none) (a : Nat) (v : Byte) :
    s.hostStore a v = none :=
  if_neg fun ⟨ho, _⟩ => h.elim (· (State.hostOwnsBuf_iff.1 ho).1) (· (State.hostOwnsBuf_iff.1 ho).2)

end Sys2Proof.Machine
end

