-- ==== Sys2Proof/Laws/KeySchedule.lean ====
section
/-! SUPPORT. The expanded words as a list: each is made from the words one and four places before it
(41_key_schedule.md R124). -/

namespace Sys2Proof.Machine

/-- In a list that starts with four words and goes on with their expansion from index i, the word j + 4 is made from
the words j and j + 3. -/
theorem expandFrom_getElem (n i j : Nat) (w4 w3 w2 w1 : KWord) (hj : j < n)
    (h4 : j + 4 < (w4 :: w3 :: w2 :: w1 :: expandFrom n i w4 w3 w2 w1).length) :
    (w4 :: w3 :: w2 :: w1 :: expandFrom n i w4 w3 w2 w1)[j + 4] =
      KWord.xor ((w4 :: w3 :: w2 :: w1 :: expandFrom n i w4 w3 w2 w1)[j]'(by omega))
        (scheduleTemp (i + j) ((w4 :: w3 :: w2 :: w1 :: expandFrom n i w4 w3 w2 w1)[j + 3]'(by omega))) := by
  induction j generalizing n i w4 w3 w2 w1 with
  | zero =>
    obtain ⟨n, rfl⟩ : ∃ m, n = m + 1 := ⟨n - 1, by omega⟩
    rfl
  | succ j ih =>
    obtain ⟨n, rfl⟩ : ∃ m, n = m + 1 := ⟨n - 1, by omega⟩
    have e := ih n (i + 1) w3 w2 w1 (KWord.xor w4 (scheduleTemp i w1)) (by omega) (by simp [expandFrom_length]; omega)
    rw [show i + 1 + j = i + (j + 1) by omega] at e
    exact e

/-- Word i of a key expansion is word i of the list. -/
theorem keyExpansion_getElem (k : Block) (i : Nat) (hi : i < 44) :
    (keyExpansion k)[i] = (keyWordList k)[i]'(by simpa [keyWordList, expandFrom_length] using hi) := rfl

/-- Each word from the fifth on is made from the words one and four places before it. -/
theorem keyExpansion_succ (k : Block) (i : Nat) (hi : i + 4 < 44) :
    (keyExpansion k)[i + 4] = KWord.xor (keyExpansion k)[i] (scheduleTemp (i + 4) (keyExpansion k)[i + 3]) := by
  have e := expandFrom_getElem 40 4 i (keyWord k 0) (keyWord k 1) (keyWord k 2) (keyWord k 3) (by omega)
    (by simp [expandFrom_length]; omega)
  rw [Nat.add_comm 4 i] at e
  exact e

end Sys2Proof.Machine
end

