-- ==== Sys2Proof/Laws/Keystream.lean ====
section
/-! SUPPORT. What the keystream operations do, once each: a cipher pass through Scratch, `Advance`, `TakeChunk`, and the
chunk loop of `APPLY` seen one byte at a time (43_commands.md R160, R161, R165, R167). -/

namespace Sys2Proof.Machine

/-! ## The cipher pass -/

/-- Rounds 1..n through Scratch: `ST` is the function form, and only `ST` and `SCR` change. -/
theorem roundPasses_eq (n : Nat) (s : State) :
    ∃ b, roundPasses n s = (s.setSt (fullRounds s.w n s.st)).setScr b := by
  induction n with
  | zero => exact ⟨s.scr, rfl⟩
  | succ n ih =>
    obtain ⟨b, hb⟩ := ih
    exact ⟨_, by rw [roundPasses, hb]; rfl⟩

/-- A cipher pass leaves `Cipher(ST, W)` in `ST` and in `SCR` and changes nothing else. -/
theorem cipherPass_eq (s : State) :
    cipherPass s = (s.setSt (cipher s.st s.w)).setScr (cipher s.st s.w) := by
  obtain ⟨b, hb⟩ := roundPasses_eq 9 (s.setSt (addRoundKey (roundKey s.w 0) s.st))
  rw [cipherPass, hb]
  simp only [finalPass, cipher, State.setSt, State.setScr]

/-- `Advance` on a block not used up does nothing. -/
theorem advance_of_lt {s : State} (h : s.pos.val < 16) : advance s = s := by
  rw [advance, if_neg (by omega)]

/-- `Advance` on a used-up block moves to the next one. -/
theorem advance_of_eq {s : State} (h : s.pos.val = 16) :
    advance s = ((s.setSt (cipher s.st s.w)).setScr (cipher s.st s.w)).setPos 0 := by
  rw [advance, if_pos (by omega), cipherPass_eq]

/-- The two cases of `Advance`. -/
theorem advance_cases (s : State) :
    (s.pos.val < 16 ∧ advance s = s) ∨
      (s.pos.val = 16 ∧ advance s = ((s.setSt (cipher s.st s.w)).setScr (cipher s.st s.w)).setPos 0) := by
  rcases Nat.lt_or_ge s.pos.val 16 with h | h
  · exact .inl ⟨h, advance_of_lt h⟩
  · have h : s.pos.val = 16 := by have := s.pos.isLt; omega
    exact .inr ⟨h, advance_of_eq h⟩

/-- After `Advance` the block is not used up. -/
theorem advance_pos_lt (s : State) : (advance s).pos.val < 16 := by
  rcases advance_cases s with ⟨h, e⟩ | ⟨_, e⟩ <;> rw [e]
  · exact h
  · exact Nat.zero_lt_succ 15

/-- `Advance` changes only `ST`, `SCR` and `POS`. -/
theorem advance_frame (s : State) :
    ∃ st scr pos, advance s = ((s.setSt st).setScr scr).setPos pos := by
  rcases advance_cases s with ⟨_, e⟩ | ⟨_, e⟩
  · exact ⟨s.st, s.scr, s.pos, e⟩
  · exact ⟨_, _, _, e⟩

@[simp] theorem advance_w (s : State) : (advance s).w = s.w := by
  obtain ⟨_, _, _, e⟩ := advance_frame s; rw [e]; rfl

@[simp] theorem advance_buf (s : State) : (advance s).buf = s.buf := by
  obtain ⟨_, _, _, e⟩ := advance_frame s; rw [e]; rfl

/-! ## The keystream -/

/-- The blocks after the first are those from the first on. -/
theorem nthBlock_succ' (w : KeyWords) (n : Nat) (b : Block) :
    nthBlock w (n + 1) b = nthBlock w n (cipher b w) := by
  induction n with
  | zero => rfl
  | succ n ih => rw [nthBlock, ih]; rfl

theorem nthBlock_add (w : KeyWords) (m n : Nat) (b : Block) :
    nthBlock w (m + n) b = nthBlock w m (nthBlock w n b) := by
  induction m with
  | zero => rw [Nat.zero_add]; rfl
  | succ m ih => rw [Nat.add_right_comm, nthBlock, ih]; rfl

/-- A keystream byte by its block number and its place in the block. -/
theorem keystreamByte_eq (s : State) {j b r : Nat} (hr : r < 16) (h : s.pos.val + j = 16 * b + r) :
    keystreamByte s j = (nthBlock s.w b s.st)[r] := by
  have h1 : (s.pos.val + j) / 16 = b := by omega
  have h2 : (s.pos.val + j) % 16 = r := by omega
  simp [keystreamByte, h1, h2]

/-- `Advance` hands out no byte: the keystream ahead is the same. -/
theorem keystreamByte_advance (s : State) (j : Nat) : keystreamByte (advance s) j = keystreamByte s j := by
  rcases advance_cases s with ⟨_, e⟩ | ⟨h, e⟩
  · rw [e]
  · have h1 : ((advance s).pos.val + j) = 16 * (j / 16) + j % 16 := by
      rw [e]; show 0 + j = _; omega
    rw [keystreamByte_eq (advance s) (by omega) h1,
      keystreamByte_eq s (b := j / 16 + 1) (r := j % 16) (by omega) (by omega), e]
    simp [nthBlock_succ']

/-- The keystream ahead depends only on `W`, `ST` and `POS`. -/
theorem keystreamByte_congr {s t : State} (hw : s.w = t.w) (hst : s.st = t.st) (hp : s.pos = t.pos) (j : Nat) :
    keystreamByte s j = keystreamByte t j := by
  simp [keystreamByte, hw, hst, hp]

/-- Bytes handed out of a block move the keystream on by as many. -/
theorem keystreamByte_setPos (s : State) (p : Fin 17) (k j : Nat) (h : p.val = s.pos.val + k) :
    keystreamByte (s.setPos p) j = keystreamByte s (k + j) := by
  have hp : (s.setPos p).pos.val + j = 16 * ((s.pos.val + (k + j)) / 16) + (s.pos.val + (k + j)) % 16 := by
    simp [h]; omega
  rw [keystreamByte_eq _ (Nat.mod_lt _ (by decide)) hp,
    keystreamByte_eq s (Nat.mod_lt _ (by decide)) (Nat.div_add_mod _ 16).symm]
  rfl

/-- The keystream bytes still in the current block are the rest of `ST`. -/
theorem keystreamByte_current (s : State) {j : Nat} (h : s.pos.val + j < 16) :
    keystreamByte s j = s.st[s.pos.val + j] := by
  rw [keystreamByte_eq s (b := 0) h (by omega)]; rfl

/-! ## TakeChunk -/

/-- Everything `TakeChunk` does: its offset and length are in range, and after `Advance` only `POS` moves. -/
theorem takeChunk_spec (n : Nat) (s : State) :
    ∃ p : Fin 17, (takeChunk n s).2.2 = (advance s).setPos p ∧
      (takeChunk n s).1 = (advance s).pos.val ∧ (takeChunk n s).2.1 = min (16 - (advance s).pos.val) n ∧
      p.val = (takeChunk n s).1 + (takeChunk n s).2.1 :=
  ⟨_, rfl, rfl, rfl, rfl⟩

@[simp] theorem chunkBytes_length (st : Block) (off len : Nat) :
    (chunkBytes st off len).length = min len (16 - off) := by
  simp [chunkBytes]

/-- Byte m of the chunk is `ST[off + m]`. -/
theorem chunkBytes_getElem? (st : Block) {off len m : Nat} (hm : m < len) :
    (chunkBytes st off len)[m]? = st[off + m]? := by
  simp [chunkBytes, hm]

/-- A chunk of at least one byte is its first byte and the rest. -/
theorem chunkBytes_succ (st : Block) {off : Nat} (len : Nat) (h : off < 16) :
    chunkBytes st off (len + 1) = st[off] :: chunkBytes st (off + 1) len := by
  rw [chunkBytes, List.drop_eq_getElem_cons (by simpa using h)]
  simp [chunkBytes]

/-! ## The chunk loop, one byte at a time -/

/-- One keystream byte XORed into BUF at address a. -/
def applyOne (a : Nat) (s : State) : State :=
  ((advance s).setPos ⟨(advance s).pos.val + 1, by have := advance_pos_lt s; omega⟩).setBuf
    (s.buf.write a (s.buf.read a ^^^ (advance s).st[(advance s).pos.val]'(advance_pos_lt s)))

/-- `n` keystream bytes XORed into BUF from address a on. -/
def applyEach : Nat → Nat → State → State
  | 0, _, s => s
  | n + 1, a, s => applyEach n (a + 1) (applyOne a s)

theorem applyEach_add (m n a : Nat) (s : State) :
    applyEach (m + n) a s = applyEach n (a + m) (applyEach m a s) := by
  induction m generalizing a s with
  | zero => rw [Nat.zero_add]; rfl
  | succ m ih =>
    rw [Nat.add_right_comm, applyEach, ih, applyEach]
    congr 1; omega

theorem advance_advance (s : State) : advance (advance s) = advance s := advance_of_lt (advance_pos_lt s)

theorem applyOne_advance (a : Nat) (s : State) : applyOne a (advance s) = applyOne a s := by
  simp [applyOne, advance_advance]

/-- Inside one block, byte by byte is one chunk. -/
theorem applyEach_chunk (k a : Nat) (s : State) (p : Fin 17) (hk : s.pos.val + k ≤ 16)
    (hp : p.val = s.pos.val + k) :
    applyEach k a s = (s.setPos p).setBuf (xorBytes (chunkBytes s.st s.pos.val k) a s.buf) := by
  induction k generalizing a s with
  | zero =>
    have : p = s.pos := Fin.ext hp
    subst this; rfl
  | succ k ih =>
    have hlt : s.pos.val < 16 := by omega
    have hone : applyOne a s = (s.setPos ⟨s.pos.val + 1, by omega⟩).setBuf
        (s.buf.write a (s.buf.read a ^^^ s.st[s.pos.val])) := by
      simp only [applyOne, advance_of_lt hlt]
    rw [applyEach, hone, ih _ _ (by simp; omega) (by simp; omega), chunkBytes_succ _ _ hlt]
    rfl

/-- The chunk loop of `APPLY` is byte by byte, whenever it has passes enough. -/
theorem applyLoop_eq_applyEach (passes a n : Nat) (s : State) (h : n ≤ passes) :
    applyLoop passes a n s = applyEach n a s := by
  induction passes generalizing a n s with
  | zero => obtain rfl : n = 0 := by omega
            rfl
  | succ passes ih =>
    rw [applyLoop]
    split
    · rename_i h0; subst h0; rfl
    · rename_i h0
      obtain ⟨p, hs, ho, hl, hp⟩ := takeChunk_spec n s
      generalize takeChunk n s = r at *
      obtain ⟨off, len, s1⟩ := r
      simp only at hs ho hl hp ⊢
      have hlt := advance_pos_lt s
      have hlen : 1 ≤ len ∧ len ≤ n := by omega
      have hchunk : applyEach len a s = s1.setBuf (xorBytes (chunkBytes s1.st off len) a s1.buf) := by
        obtain ⟨k, rfl⟩ : ∃ k, len = k + 1 := ⟨len - 1, by omega⟩
        have : applyEach (k + 1) a s = applyEach (k + 1) a (advance s) := by
          rw [applyEach, applyEach, applyOne_advance]
        rw [this, applyEach_chunk (k + 1) a (advance s) p (by omega) (by omega), hs, ← ho]
        rfl
      rw [ih _ _ _ (by omega), ← hchunk, ← applyEach_add]
      congr 1; omega

/-- `applyRange` is byte by byte. -/
theorem applyRange_eq (a n : Nat) (s : State) : applyRange a n s = applyEach n a s :=
  applyLoop_eq_applyEach n a n s (Nat.le_refl n)

/-- Two ranges one after the other are the whole range (43_commands.md R168). -/
theorem applyRange_add (a m n : Nat) (s : State) :
    applyRange a (m + n) s = applyRange (a + m) n (applyRange a m s) := by
  simp only [applyRange_eq, applyEach_add]

/-! ## Everything `applyRange` does -/

theorem applyOne_frame (a : Nat) (s : State) :
    ∃ st scr pos, applyOne a s =
      (((s.setSt st).setScr scr).setPos pos).setBuf (s.buf.write a (s.buf.read a ^^^ keystreamByte s 0)) := by
  have hk : keystreamByte s 0 = (advance s).st[(advance s).pos.val]'(advance_pos_lt s) := by
    rw [← keystreamByte_advance, keystreamByte_current _ (by simpa using advance_pos_lt s)]; rfl
  obtain ⟨st, scr, pos, e⟩ := advance_frame s
  refine ⟨st, scr, ⟨(advance s).pos.val + 1, by have := advance_pos_lt s; omega⟩, ?_⟩
  have hset : ∀ p b, ((advance s).setPos p).setBuf b = (((s.setSt st).setScr scr).setPos p).setBuf b := by
    intro p b; rw [e]; rfl
  rw [applyOne, hk, hset]

/-- One byte moves the keystream on by one. -/
theorem keystreamByte_applyOne (a : Nat) (s : State) (j : Nat) :
    keystreamByte (applyOne a s) j = keystreamByte s (1 + j) := by
  rw [← keystreamByte_advance s,
    ← keystreamByte_setPos (advance s) ⟨(advance s).pos.val + 1, by have := advance_pos_lt s; omega⟩ 1 j rfl]
  exact keystreamByte_congr rfl rfl rfl j

/-- `applyRange` changes only `ST`, `SCR`, `POS` and BUF. -/
theorem applyRange_frame (a n : Nat) (s : State) :
    ∃ st scr pos buf, applyRange a n s = (((s.setSt st).setScr scr).setPos pos).setBuf buf := by
  rw [applyRange_eq]
  induction n generalizing a s with
  | zero => exact ⟨s.st, s.scr, s.pos, s.buf, rfl⟩
  | succ n ih =>
    obtain ⟨st, scr, pos, e⟩ := applyOne_frame a s
    obtain ⟨st', scr', pos', buf', e'⟩ := ih (a + 1) (applyOne a s)
    exact ⟨st', scr', pos', buf', by rw [applyEach, e', e]; rfl⟩

/-- `applyRange` moves the keystream on by its length. -/
theorem keystreamByte_applyRange (a n : Nat) (s : State) (j : Nat) :
    keystreamByte (applyRange a n s) j = keystreamByte s (n + j) := by
  rw [applyRange_eq]
  induction n generalizing a s j with
  | zero => rw [Nat.zero_add]; rfl
  | succ n ih => rw [applyEach, ih, keystreamByte_applyOne]; congr 1; omega

theorem applyOne_buf (a : Nat) (s : State) :
    (applyOne a s).buf = s.buf.write a (s.buf.read a ^^^ keystreamByte s 0) := by
  obtain ⟨_, _, _, e⟩ := applyOne_frame a s; rw [e]; rfl

/-- `applyRange` keeps BUF canonical. -/
theorem applyRange_wf {s : State} (hm : Memory.wf s.buf = true) (a n : Nat) :
    Memory.wf (applyRange a n s).buf = true := by
  rw [applyRange_eq]
  induction n generalizing a s with
  | zero => exact hm
  | succ n ih => rw [applyEach]; exact ih (by rw [applyOne_buf]; exact Memory.wf_write hm _ _) _

/-- What `applyRange` does to the byte read at any address. -/
theorem applyRange_read {s : State} (hm : Memory.wf s.buf = true) (a n b : Nat) :
    (applyRange a n s).buf.read b =
      if a ≤ b ∧ b < a + n then s.buf.read b ^^^ keystreamByte s (b - a) else s.buf.read b := by
  rw [applyRange_eq]
  induction n generalizing a s with
  | zero => rw [if_neg (by omega)]; rfl
  | succ n ih =>
    have hw : Memory.wf (applyOne a s).buf = true := by rw [applyOne_buf]; exact Memory.wf_write hm _ _
    rw [applyEach, ih hw, applyOne_buf, keystreamByte_applyOne]
    by_cases hb : b = a
    · subst hb
      rw [if_neg (by omega), if_pos (by omega), Memory.read_write_same hm, Nat.sub_self]
    · rw [Memory.read_write_other _ hb]
      by_cases hin : a + 1 ≤ b ∧ b < a + 1 + n
      · have h1 : 1 + (b - (a + 1)) = b - a := by omega
        rw [if_pos hin, if_pos (by omega), h1]
      · rw [if_neg hin, if_neg (by omega)]

/-- `applyRange` writes only its own addresses. -/
theorem mem_applyRange {s : State} {a n : Nat} {c : Host.Cell} (h : c ∈ (applyRange a n s).buf) :
    (a ≤ c.1 ∧ c.1 < a + n) ∨ c ∈ s.buf := by
  rw [applyRange_eq] at h
  induction n generalizing a s with
  | zero => exact .inr h
  | succ n ih =>
    rcases ih h with h | h
    · exact .inl (by omega)
    · rw [applyOne_buf] at h
      rcases Memory.mem_write h with h | h
      · exact .inl (by omega)
      · exact .inr h

theorem applyOne_pos (a : Nat) (s : State) :
    (applyOne a s).pos.val = (if s.pos.val = 16 then 0 else s.pos.val) + 1 := by
  rcases advance_cases s with ⟨h, e⟩ | ⟨h, e⟩
  · simp [applyOne, e, Nat.ne_of_lt h]
  · simp [applyOne, e, h]

theorem applyOne_st (a : Nat) (s : State) :
    (applyOne a s).st = nthBlock s.w (s.pos.val / 16) s.st := by
  rcases advance_cases s with ⟨h, e⟩ | ⟨h, e⟩
  · simp [applyOne, e, Nat.div_eq_of_lt h, nthBlock]
  · simp [applyOne, e, h, nthBlock]

theorem applyOne_w (a : Nat) (s : State) : (applyOne a s).w = s.w := by simp [applyOne]

/-- Where a range of at least one byte leaves `ST` and `POS`: at the block and the place of its last byte. -/
theorem applyRange_last (a n : Nat) (s : State) :
    (applyRange a (n + 1) s).st = nthBlock s.w ((s.pos.val + n) / 16) s.st ∧
      (applyRange a (n + 1) s).pos.val = (s.pos.val + n) % 16 + 1 := by
  rw [applyRange_eq]
  induction n generalizing a s with
  | zero =>
    refine ⟨applyOne_st a s, ?_⟩
    show (applyOne a s).pos.val = _
    rw [applyOne_pos]; have := s.pos.isLt; split <;> omega
  | succ n ih =>
    obtain ⟨h1, h2⟩ := ih (a + 1) (applyOne a s)
    rw [applyEach]
    have hp := applyOne_pos a s
    have := s.pos.isLt
    refine ⟨?_, ?_⟩
    · rw [h1, applyOne_w, applyOne_st, ← nthBlock_add]
      congr 1; rw [hp]; split <;> omega
    · rw [h2, hp]; split <;> omega

end Sys2Proof.Machine
end

