-- ==== Sys2Proof/Laws/PerInstr.lean ====
section
/-! SUPPORT. The family `CommandLength`, one lemma per constructor: the words of a command are its header and the payload
words its OP gives (30_encoding.md R82). -/

namespace Sys2Proof.Laws

/-- The encoding of `i` is one header word and exactly `P(OP)` payload words. -/
def CommandLength.Statement (i : Instr) : Prop :=
  ∃ h p, encode i = h :: p ∧ p.length = payloadWords (opcode h)

theorem CommandLength.setKey (key : Block) : CommandLength.Statement (.setKey key) := ⟨_, _, rfl, rfl⟩

theorem CommandLength.setIv (iv : Block) : CommandLength.Statement (.setIv iv) := ⟨_, _, rfl, rfl⟩

theorem CommandLength.nextChunk (n : Word32) : CommandLength.Statement (.nextChunk n) := ⟨_, _, rfl, rfl⟩

theorem CommandLength.apply (addr len : Word32) : CommandLength.Statement (.apply addr len) := ⟨_, _, rfl, rfl⟩

end Sys2Proof.Laws
end

