-- ==== Sys2Proof/Laws/Step.lean ====
section
/-! SUPPORT. What the meanings and the step do, said once: every meaning answers a next state, what no command changes,
and the cases of a step that answers one. -/

namespace Sys2Proof.Machine

/-! ## Faults and responses -/

/-- Taking a fault is the plain form of the statements. -/
theorem raiseFault_eq (c : FaultCause) (s : State) : raiseFault c s = s.afterFault c.code := by
  cases c <;> rfl

/-- The halted answer is the plain form of the statements. -/
theorem respondHalted_eq (s : State) : respondHalted s = s.afterHalted := by
  simp [respondHalted, State.respond, State.afterHalted, responseHeader, Status.code]

/-- No check of keystream use fails exactly when both flags are set. -/
theorem contextFault_eq_none {s : State} : contextFault s = none ↔ s.kv = true ∧ s.sv = true := by
  simp only [contextFault]
  cases s.kv <;> cases s.sv <;> simp

/-- An APPLY of no byte raises no fault. -/
@[simp] theorem applyFault_zero (addr : Word32) (s : State) : applyFault addr 0#32 s = none := by
  simp [applyFault]

/-- An APPLY of at least one byte passes its checks exactly when both flags are set and its range is inside BUF. -/
theorem applyFault_eq_none {addr len : Word32} {s : State} (hl : len ≠ 0#32) :
    applyFault addr len s = none ↔ s.kv = true ∧ s.sv = true ∧ addr.toNat + len.toNat ≤ s.bufSize := by
  simp only [applyFault, if_neg hl, contextFault]
  cases s.kv <;> cases s.sv <;> simp

/-! ## The four meanings -/

theorem exec_setKey (key : Block) (s : State) :
    exec (.setKey key) s =
      .next { s with w := keyExpansion key, kv := true, pos := 16, rsp := s.rsp ++ [0x00000000#32] } := rfl

theorem exec_setIv (iv : Block) (s : State) :
    exec (.setIv iv) s = .next { s with st := iv, sv := true, pos := 16, rsp := s.rsp ++ [0x00000000#32] } := rfl

/-- NEXT_CHUNK answers a fault taken, or its chunk. -/
theorem exec_nextChunk (n : Word32) (s : State) :
    (∃ c, contextFault s = some c ∧ exec (.nextChunk n) s = .next (s.afterFault c.code)) ∨
      (contextFault s = none ∧ exec (.nextChunk n) s =
        .next ((takeChunk n.toNat s).2.2.respond
          (chunkResponse (takeChunk n.toNat s).2.2.st (takeChunk n.toNat s).1 (takeChunk n.toNat s).2.1))) := by
  show (∃ c, _ ∧ execNextChunk n s = _) ∨ (_ ∧ execNextChunk n s = _)
  cases h : contextFault s with
  | none => exact .inr ⟨rfl, by simp only [execNextChunk, h]⟩
  | some c => exact .inl ⟨c, rfl, by simp only [execNextChunk, h, raiseFault_eq]⟩

/-- APPLY answers a fault taken, or the XOR of its range. -/
theorem exec_apply (addr len : Word32) (s : State) :
    (∃ c, applyFault addr len s = some c ∧ exec (.apply addr len) s = .next (s.afterFault c.code)) ∨
      (applyFault addr len s = none ∧
        exec (.apply addr len) s = .next ((applyRange addr.toNat len.toNat s).respond [okHeader])) := by
  show (∃ c, _ ∧ execApply addr len s = _) ∨ (_ ∧ execApply addr len s = _)
  cases h : applyFault addr len s with
  | none => exact .inr ⟨rfl, by simp only [execApply, h]⟩
  | some c => exact .inl ⟨c, rfl, by simp only [execApply, h, raiseFault_eq]⟩

/-- Every meaning answers a next state: none faults or refuses. -/
theorem exec_answers (i : Instr) (s : State) : ∃ t, exec i s = .next t := by
  cases i with
  | setKey key => exact ⟨_, exec_setKey key s⟩
  | setIv iv => exact ⟨_, exec_setIv iv s⟩
  | nextChunk n => rcases exec_nextChunk n s with ⟨_, _, h⟩ | ⟨_, h⟩ <;> exact ⟨_, h⟩
  | apply addr len => rcases exec_apply addr len s with ⟨_, _, h⟩ | ⟨_, h⟩ <;> exact ⟨_, h⟩

/-- What no command changes: the BUF size, CMD, RST and the reset counter. -/
theorem exec_frame {i : Instr} {s t : State} (h : exec i s = .next t) :
    t.bufTop = s.bufTop ∧ t.cmd = s.cmd ∧ t.rst = s.rst ∧ t.resets = s.resets := by
  cases i with
  | setKey key => cases h; exact ⟨rfl, rfl, rfl, rfl⟩
  | setIv iv => cases h; exact ⟨rfl, rfl, rfl, rfl⟩
  | nextChunk n =>
    rcases exec_nextChunk n s with ⟨_, _, e⟩ | ⟨_, e⟩
    · rw [e] at h; cases h; exact ⟨rfl, rfl, rfl, rfl⟩
    · rw [e] at h
      obtain ⟨p, hp, _⟩ := takeChunk_spec n.toNat s
      obtain ⟨_, _, _, ha⟩ := advance_frame s
      rw [hp, ha] at h
      cases h; exact ⟨rfl, rfl, rfl, rfl⟩
  | apply addr len =>
    rcases exec_apply addr len s with ⟨_, _, e⟩ | ⟨_, e⟩
    · rw [e] at h; cases h; exact ⟨rfl, rfl, rfl, rfl⟩
    · rw [e] at h
      obtain ⟨_, _, _, _, ha⟩ := applyRange_frame addr.toNat len.toNat s
      rw [ha] at h
      cases h; exact ⟨rfl, rfl, rfl, rfl⟩

/-! ## The step -/

/-- A step with no reset pending and a whole command on CMD is the checks and execution of that command. -/
theorem step_command {s : State} {h : Word32} {p rest : List Word32} (hr : s.rst = none)
    (hc : takeCommand s.cmd = some (h, p, rest)) : step s = runCommand h p (s.setCmd rest) := by
  simp only [step, hr, commandCycle, hc]

/-- The same for a whole command written out. -/
theorem step_whole {s : State} {h : Word32} {p rest : List Word32} (hr : s.rst = none)
    (hc : s.cmd = h :: p ++ rest) (hp : p.length = payloadWords (opcode h)) :
    step s = runCommand h p (s.setCmd rest) :=
  step_command hr (by rw [hc]; exact takeCommand_append rest hp)

/-- The cases of a step that answers a next state: a reset taken, a command answered HALTED, a header rejected, or a
command executed. -/
theorem step_cases {s t : State} (e : step s = .next t) :
    (∃ m, s.rst = some m ∧ t = takeReset m s) ∨
      (s.rst = none ∧ ∃ h p rest, takeCommand s.cmd = some (h, p, rest) ∧
        ((s.flt = true ∧ t = (s.setCmd rest).afterHalted) ∨
          (s.flt = false ∧ decodeCommand h p = .error .illegalOpcode ∧ t = (s.setCmd rest).afterFault 1#4) ∨
          (s.flt = false ∧ decodeCommand h p = .error .reservedBits ∧ t = (s.setCmd rest).afterFault 2#4) ∨
          (s.flt = false ∧ ∃ i, decodeCommand h p = .ok i ∧ exec i (s.setCmd rest) = .next t))) := by
  cases hr : s.rst with
  | some m =>
    simp only [step, hr] at e
    cases e
    exact .inl ⟨m, rfl, rfl⟩
  | none =>
    refine .inr ⟨rfl, ?_⟩
    cases hc : takeCommand s.cmd with
    | none => simp only [step, hr, commandCycle, hc] at e; cases e
    | some c =>
      obtain ⟨h, p, rest⟩ := c
      rw [step_command hr hc] at e
      refine ⟨h, p, rest, rfl, ?_⟩
      cases hf : s.flt with
      | true =>
        simp only [runCommand, State.setCmd_flt, hf, if_true] at e
        cases e
        exact .inl ⟨rfl, respondHalted_eq _⟩
      | false =>
        simp only [runCommand, State.setCmd_flt, hf, Bool.false_eq_true, if_false] at e
        cases hd : decodeCommand h p with
        | ok i => simp only [hd] at e; exact .inr (.inr (.inr ⟨rfl, i, rfl, e⟩))
        | error x =>
          simp only [hd] at e
          cases x with
          | incomplete => cases e
          | illegalOpcode => cases e; exact .inr (.inl ⟨rfl, rfl, raiseFault_eq _ _⟩)
          | reservedBits => cases e; exact .inr (.inr (.inl ⟨rfl, rfl, raiseFault_eq _ _⟩))

end Sys2Proof.Machine
end

