-- ==== Sys2Proof/Tests/Slice0.lean ====
section
/-! SUPPORT. Our own tests: one step each, expected values from 95_test_vectors.md and the rules' examples; and for every
obligation with hypotheses a state and operands that meet them. -/

open Sys2Proof Sys2Proof.Machine

namespace Sys2Proof.Tests

/-! ## Helpers -/

/-- A block from its hex digits, byte 0 first (00_scope.md R10). -/
def hex (v : BitVec 128) : Block := Vector.ofFn fun i : Fin 16 => v.extractLsb' (8 * (15 - i.val)) 8

/-- The key of the known-answer test. -/
def katKey : Block := hex 0x000102030405060708090a0b0c0d0e0f#128

/-- The input of the known-answer test. -/
def katIn : Block := hex 0x00112233445566778899aabbccddeeff#128

/-- The key of L2-CMD-1. Its IV is `katKey`. -/
def ofbKey : Block := hex 0x2b7e151628aed2a6abf7158809cf4f3c#128

/-- `B1` of L2-CMD-1. -/
def ofbB1 : Block := hex 0x50fe67cc996d32b6da0937e99bafec60#128

/-- `B2` of L2-CMD-1. -/
def ofbB2 : Block := hex 0xd9a4dada0892239f6b8b3d7680e15674#128

/-- A core with all flags clear and a BUF of 0x400 bytes. -/
def blank : State where
  w := Vector.replicate 44 (Vector.replicate 4 0x00#8)
  st := Vector.replicate 16 0x00#8
  scr := Vector.replicate 16 0x00#8
  pos := 16
  kv := false
  sv := false
  flt := false
  cause := 0#4
  bufTop := 0x3ff#32
  buf := []
  cmd := []
  rsp := []
  rst := none
  resets := 0

/-- A core after SET_KEY and SET_IV. -/
def seeded (key iv : Block) : State := { blank with w := keyExpansion key, st := iv, kv := true, sv := true }

/-- A core with both flags set whose registers are all zero, for tests that take no cipher pass. -/
def ready : State := { blank with kv := true, sv := true }

/-- A core with fault number c latched. -/
def faulted (c : BitVec 4) : State := { blank with flt := true, cause := c }

/-- A BUF that holds the 16 bytes of `b` from address a on. -/
def bufWith (a : Nat) (b : Block) : Memory := xorBytes b.toList a []

/-- The next state, if there is one. -/
def result (o : Host.Outcome State Fault Refusal) : Option State :=
  match o with
  | .next t => some t
  | _ => none

/-! ## Well-formedness: there is no ill-formed command (30_encoding.md R74 to R76; log 13) -/

theorem test_wellFormed_setKey : (Instr.setKey katKey).wellFormed = true := by decide
theorem test_wellFormed_setIv : (Instr.setIv katIn).wellFormed = true := by decide
theorem test_wellFormed_nextChunk_max : (Instr.nextChunk 0xFFFFFFFF#32).wellFormed = true := by decide
theorem test_wellFormed_apply_max : (Instr.apply 0xFFFFFFFF#32 0xFFFFFFFF#32).wellFormed = true := by decide

/-! ## Decoding: headers written out bit by bit (30_encoding.md R72 to R76; L2-CMD-2) -/

theorem test_decode_setKey :
    decode [0b00000000000000000000000000000001#32, 0x16157e2b#32, 0xa6d2ae28#32, 0x8815f7ab#32, 0x3c4fcf09#32] =
      .ok (.setKey ofbKey, []) := by decide

theorem test_decode_setIv :
    decode [0b00000000000000000000000000000010#32, 0x33221100#32, 0x77665544#32, 0xbbaa9988#32, 0xffeeddcc#32] =
      .ok (.setIv katIn, []) := by decide

theorem test_decode_nextChunk :
    decode [0b00000000000000000000000000000011#32, 0b11111111111111111111111111111111#32, 0x00000005#32] =
      .ok (.nextChunk 0xFFFFFFFF#32, [0x00000005#32]) := by decide

theorem test_decode_apply :
    decode [0b00000000000000000000000000000100#32, 0xffffffff#32, 0x00000002#32] =
      .ok (.apply 0xFFFFFFFF#32 2#32, []) := by decide

/-- A reserved OP takes no payload (30_encoding.md R71). -/
theorem test_decode_reserved_opcode : takeCommand [0x00000005#32, 0x00000001#32] = some (5#32, [], [1#32]) := by decide

/-- OP 3 with bit 4 set (F3 of L2-FLT). -/
theorem test_decode_reserved_bits : decode [0x00000013#32, 0x00000010#32] = .error .reservedBits := by decide

/-- A header without its payload is no command yet (30_encoding.md R71). -/
theorem test_decode_incomplete : decode [0x00000004#32, 0x00000100#32] = .error .incomplete := by decide

theorem test_encode_setKey :
    encode (.setKey ofbKey) = [0x00000001#32, 0x16157e2b#32, 0xa6d2ae28#32, 0x8815f7ab#32, 0x3c4fcf09#32] := by decide

/-- The table's numbering: the header in bits 31..0, ADDR in 63..32, LEN in 95..64. -/
theorem test_decodeTableWord_apply :
    decodeTableWord 96 0x000000400000010000000004 = some (.apply 0x100#32 0x40#32) := by decide

/-- Bits above `nbits` are 0. -/
theorem test_decodeTableWord_short : decodeTableWord 32 0x00000003 = some (.nextChunk 0#32) := by decide

theorem test_withFetchWord : (blank.withFetchWord 64 0x0000001000000003).cmd = [0x00000003#32, 0x00000010#32] := by decide

/-! ## Field, key schedule and rounds (L2-GF, L2-KS, L2-RT) -/

theorem test_mul : mul2 0xd4#8 = 0xb3#8 ∧ mul3 0xbf#8 = 0xda#8 ∧ mul2 0x83#8 = 0x1d#8 := by decide

theorem test_sbox : sbox 0x9a#8 = 0xb8#8 ∧ sbox 0xcf#8 = 0x8a#8 ∧ sbox 0xfe#8 = 0xbb#8 := by decide +kernel

theorem test_rcon_unused : rcon 11 = 0x6c#8 := by decide

/-- RK[10] of the L2-CMD-1 key (L2-KS-3). -/
theorem test_keyExpansion : roundKey (keyExpansion ofbKey) 10 = hex 0xd014f9a8c9ee2589e13f0cc8b6630ca6#128 := by
  decide +kernel

theorem test_mixColumn :
    mixColumn #v[0xdb#8, 0x13#8, 0x53#8, 0x45#8] = #v[0x8e#8, 0x4d#8, 0xa1#8, 0xbc#8] ∧
      mixColumn #v[0x00#8, 0x00#8, 0x00#8, 0x01#8] = #v[0x01#8, 0x01#8, 0x03#8, 0x02#8] := by decide

/-- L2-RT-6. -/
theorem test_cipher :
    cipher (hex 0x3243f6a8885a308d313198a2e0370734#128) (keyExpansion ofbKey) =
      hex 0x3925841d02dc09fbdc118597196a0b32#128 := by decide +kernel

/-! ## SET_KEY -/

/-- The first command of P1, from its words. -/
theorem test_setKey :
    (result (step (blank.send [0x00000001#32, 0x03020100#32, 0x07060504#32, 0x0b0a0908#32, 0x0f0e0d0c#32]))).map
        (fun t => (roundKey t.w 10, t.kv, t.sv, t.pos, t.rsp)) =
      some (hex 0x13111d7fe3944a17f307a78b4d2b30c5#128, true, false, 16, [0x00000000#32]) := by decide +kernel

/-- F11 of L2-FLT. -/
theorem test_setKey_halted :
    (result (step ((faulted 3#4).send
        [0x00000001#32, 0x03020100#32, 0x07060504#32, 0x0b0a0908#32, 0x0f0e0d0c#32]))).map
        (fun t => (t.kv, t.cmd, t.rsp)) =
      some (false, [], [0x00000032#32]) := by decide +kernel

/-! ## SET_IV -/

/-- The second command of P1. -/
theorem test_setIv :
    (result (step (({ blank with pos := 3 } : State).send
        [0x00000002#32, 0x33221100#32, 0x77665544#32, 0xbbaa9988#32, 0xffeeddcc#32]))).map
        (fun t => (t.st, t.kv, t.sv, t.pos, t.rsp)) =
      some (katIn, false, true, 16, [0x00000000#32]) := by decide +kernel

/-! ## NEXT_CHUNK -/

/-- The third command of P1. -/
theorem test_nextChunk_whole_block :
    (result (exec (.nextChunk 16#32) (seeded katKey katIn))).map (fun t => (t.st, t.pos, t.rsp)) =
      some (hex 0x69c4e0d86a7b0430d8cdb78070b4c55a#128, 16,
        [0x00001000#32, 0xd8e0c469#32, 0x30047b6a#32, 0x80b7cdd8#32, 0x5ac5b470#32]) := by decide +kernel

/-- Row 3 of L2-CMD-4. -/
theorem test_nextChunk_rest_of_block :
    (result (exec (.nextChunk 100#32) { ready with st := ofbB1, pos := 5 })).map (fun t => (t.pos, t.rsp)) =
      some (16, [0x00050b00#32, 0xdab6326d#32, 0x9be93709#32, 0x0060ecaf#32]) := by decide +kernel

/-! ## APPLY -/

/-- The first block of L2-CMD-1, as the example of 43_commands.md R165. -/
theorem test_apply_block :
    (result (exec (.apply 0x100#32 16#32)
        { seeded ofbKey katKey with buf := bufWith 0x100 (hex 0x6bc1bee22e409f96e93d7e117393172a#128) })).map
        (fun t => (t.buf, t.pos, t.rsp)) =
      some (bufWith 0x100 (hex 0x3b3fd92eb72dad20333449f8e83cfb4a#128), 16, [0x00000000#32]) := by decide +kernel

/-- The third row of L2-CMD-5: across two blocks, over zero bytes from 0x105 on. -/
theorem test_apply_across_blocks :
    (result (exec (.apply 0x105#32 15#32) { seeded ofbKey katKey with st := ofbB1, pos := 5 })).map
        (fun t => (t.st, t.pos, t.buf.read 0x104, t.buf.read 0x105, t.buf.read 0x10f, t.buf.read 0x110, t.buf.read 0x113,
          t.buf.read 0x114)) =
      some (ofbB2, 4, 0x00#8, 0x6d#8, 0x60#8, 0xd9#8, 0xda#8, 0x00#8) := by decide +kernel

/-! ## Faults and reset (L2-FLT, L2-RST) -/

/-- F2: the all-zero header. -/
theorem test_fault_illegalOpcode :
    (result (step (blank.send [0x00000000#32, 0x00000003#32]))).map (fun t => (t.flt, t.cause, t.rsp, t.cmd)) =
      some (true, 1#4, [0x00000011#32], [0x00000003#32]) := by decide +kernel

/-- F3. -/
theorem test_fault_reservedBits :
    (result (step (ready.send [0x00000013#32, 0x00000010#32]))).map (fun t => (t.flt, t.cause, t.rsp, t.cmd)) =
      some (true, 2#4, [0x00000021#32], []) := by decide +kernel

/-- F9: KEY_NOT_SET before BUFFER_RANGE. -/
theorem test_fault_keyNotSet :
    (result (step (blank.send [0x00000004#32, 0x000003f0#32, 0x00000020#32]))).map (fun t => (t.cause, t.rsp)) =
      some (3#4, [0x00000031#32]) := by decide +kernel

/-- F5. -/
theorem test_fault_ivNotSet :
    (result (step (({ blank with kv := true } : State).send [0x00000004#32, 0x00000000#32, 0x00000001#32]))).map
        (fun t => (t.cause, t.rsp)) =
      some (4#4, [0x00000041#32]) := by decide +kernel

/-- F7: the exact sum does not wrap. -/
theorem test_fault_bufferRange :
    (result (step (ready.send [0x00000004#32, 0xffffffff#32, 0x00000002#32]))).map (fun t => (t.cause, t.rsp)) =
      some (5#4, [0x00000051#32]) := by decide +kernel

/-- F8: LEN = 0 passes before any check. -/
theorem test_apply_nothing :
    (result (step (blank.send [0x00000004#32, 0xffffffff#32, 0x00000000#32]))).map (fun t => (t.flt, t.rsp)) =
      some (false, [0x00000000#32]) := by decide +kernel

/-- R3 with m = 5: no response, five bytes of the range written. -/
theorem test_reset_cuts_apply :
    (result (step (({ seeded ofbKey katKey with
        buf := bufWith 0x100 (hex 0x6bc1bee22e409f96e93d7e117393172a#128) }.send
          [0x00000004#32, 0x00000100#32, 0x00000040#32]).assertReset 5))).map
        (fun t => (t.kv, t.rsp, t.buf)) =
      some (false, [], bufWith 0x100 (hex 0x3b3fd92eb7409f96e93d7e117393172a#128)) := by decide +kernel

/-! ## The host and BUF (R57, R227; U22) -/

/-- A host that has sent an APPLY has no write of its range before the answer, and has one after it. -/
theorem test_hostStore_waits_for_the_response :
    (ready.send [0x00000004#32, 0x00000100#32, 0x00000000#32]).hostStore 0x100 0x01#8 = none ∧
      ((result (step (ready.send [0x00000004#32, 0x00000100#32, 0x00000000#32]))).bind
        (·.hostStore 0x100 0x01#8)).map (·.buf) = some [(0x100, 0x01#8)] := by decide +kernel

/-! ## Witnesses: for each obligation with hypotheses, states and operands that meet them, at the ends of their ranges -/

/-- SboxIsInverseThenAffine: 0x01 and 0xFF are not 0. -/
theorem witness_SboxIsInverseThenAffine : (0x01#8 : Byte) ≠ 0x00#8 ∧ (0xFF#8 : Byte) ≠ 0x00#8 := by decide

/-- RoundConstantValues: 2 and 10 are the ends of the recurrence. -/
theorem witness_RoundConstantValues : (2 ≤ 2 ∧ 2 ≤ 10) ∧ 2 ≤ 10 ∧ 10 ≤ 10 := by decide

/-- KeyExpansionRecurrence: the last word of the recurrence, and the two keys of its examples. -/
theorem witness_KeyExpansionRecurrence :
    39 + 4 < 44 ∧ hex 0#128 = Vector.replicate 16 0x00#8 ∧
      katKey = #v[0x00#8, 0x01#8, 0x02#8, 0x03#8, 0x04#8, 0x05#8, 0x06#8, 0x07#8,
        0x08#8, 0x09#8, 0x0a#8, 0x0b#8, 0x0c#8, 0x0d#8, 0x0e#8, 0x0f#8] := by decide

/-- RoundsGoThroughScratch: rounds 1 and 9, and the key of its example. -/
theorem witness_RoundsGoThroughScratch :
    (1 ≤ (1 : Fin 11).val ∧ (1 : Fin 11).val ≤ 9) ∧ (1 ≤ (9 : Fin 11).val ∧ (9 : Fin 11).val ≤ 9) ∧
      katKey = #v[0x00#8, 0x01#8, 0x02#8, 0x03#8, 0x04#8, 0x05#8, 0x06#8, 0x07#8,
        0x08#8, 0x09#8, 0x0a#8, 0x0b#8, 0x0c#8, 0x0d#8, 0x0e#8, 0x0f#8] := by decide

/-- AdvanceStepsTheBlock: a block with one byte left, and a used-up block. -/
theorem witness_AdvanceStepsTheBlock :
    ({ ready with pos := 15 } : State).pos.val < 16 ∧ 16 ≤ ready.pos.val := by decide

/-- TakeChunkHandsOutTheRest: `TakeChunk` of 100 at POS 5, of 0 at POS 15, of 0 at POS 16, and of 1 at POS 15. -/
theorem witness_TakeChunkHandsOutTheRest :
    takeChunk 100 { ready with pos := 5 } = (5, 11, { ready with pos := 16 }) ∧
      (({ ready with pos := 15 } : State).pos.val < 16 ∧ takeChunk 0 { ready with pos := 15 } = (15, 0, { ready with pos := 15 })) ∧
      (ready.pos.val = 16 ∧ ∃ off len t, takeChunk 0 ready = (off, len, t)) ∧
      (16 - (advance { ready with pos := 15 }).pos.val ≤ 1 ∧ takeChunk 1 { ready with pos := 15 } = (15, 1, ready)) := by
  refine ⟨by decide +kernel, by decide +kernel, ⟨rfl, _, _, _, rfl⟩, by decide +kernel⟩

/-- SetKeyLoadsTheSchedule: the words of a SET_KEY, also with a reserved bit set and on a halted core. -/
theorem witness_SetKeyLoadsTheSchedule :
    (blank.send [0x00000001#32, 1#32, 2#32, 3#32, 4#32, 5#32]).rst = none ∧
      (blank.send [0x00000001#32, 1#32, 2#32, 3#32, 4#32, 5#32]).cmd = 0x00000001#32 :: 1#32 :: 2#32 :: 3#32 :: 4#32 :: [5#32] ∧
      ((faulted 1#4).send [0x80000001#32, 1#32, 2#32, 3#32, 4#32]).cmd = 0x80000001#32 :: 1#32 :: 2#32 :: 3#32 :: 4#32 :: [] ∧
      (0x00000001#32).extractLsb' 0 4 = 1#4 ∧ (0x80000001#32).extractLsb' 0 4 = 1#4 := by decide

/-- SetIvSeedsTheState: the words of a SET_IV, also with a reserved bit set. -/
theorem witness_SetIvSeedsTheState :
    (blank.send [0x00000002#32, 1#32, 2#32, 3#32, 4#32]).rst = none ∧
      (blank.send [0x00000002#32, 1#32, 2#32, 3#32, 4#32]).cmd = 0x00000002#32 :: 1#32 :: 2#32 :: 3#32 :: 4#32 :: [] ∧
      (0x00000002#32).extractLsb' 0 4 = 2#4 ∧ (0x00000012#32).extractLsb' 0 4 = 2#4 := by decide

/-- NextChunkReturnsKeystream: no key, no IV, both at POS 16, both at POS 15, and the words of a NEXT_CHUNK. -/
theorem witness_NextChunkReturnsKeystream :
    blank.kv = false ∧ (({ blank with kv := true } : State).kv = true ∧ ({ blank with kv := true } : State).sv = false) ∧
      (ready.kv = true ∧ ready.sv = true ∧ ready.pos.val = 16) ∧
      (({ ready with pos := 15 } : State).kv = true ∧ ({ ready with pos := 15 } : State).sv = true ∧
        ({ ready with pos := 15 } : State).pos.val ≠ 16) ∧
      (ready.send [0x00000003#32, 7#32]).rst = none ∧ (ready.send [0x00000003#32, 7#32]).cmd = 0x00000003#32 :: 7#32 :: [] ∧
      (0x00000003#32).extractLsb' 0 4 = 3#4 := by decide

/-- ApplyXorsTheRange: LEN 0; no key; no IV; the range one byte past BUF; the range ending exactly at BUF; the words. -/
theorem witness_ApplyXorsTheRange :
    (1#32 ≠ 0#32 ∧ blank.kv = false) ∧
      (({ blank with kv := true } : State).kv = true ∧ ({ blank with kv := true } : State).sv = false) ∧
      (ready.kv = true ∧ ready.sv = true ∧ ready.bufSize < (0x3F0#32).toNat + (0x11#32).toNat) ∧
      ((0x3F0#32).toNat + (0x10#32).toNat ≤ ready.bufSize ∧ (0x10#32) ≠ 0#32 ∧ Memory.wf ready.buf = true) ∧
      (ready.send [0x00000004#32, 0#32, 1#32]).rst = none ∧
      (ready.send [0x00000004#32, 0#32, 1#32]).cmd = 0x00000004#32 :: 0#32 :: 1#32 :: [] ∧
      (0x00000004#32).extractLsb' 0 4 = 4#4 := by decide

/-- CommandFrames: every command answers a next state, NEXT_CHUNK and APPLY also a faulted one. -/
theorem witness_CommandFrames :
    (∃ t, exec (.setKey katKey) blank = .next t) ∧ (∃ t, exec (.setIv katIn) blank = .next t) ∧
      (∃ t, exec (.nextChunk 3#32) { ready with pos := 5 } = .next t) ∧ (∃ t, exec (.nextChunk 3#32) blank = .next t) ∧
      (∃ t, exec (.apply 0x3F0#32 0x10#32) ready = .next t) ∧ ∃ t, exec (.apply 0x3F0#32 0x11#32) ready = .next t :=
  ⟨exec_answers _ _, exec_answers _ _, exec_answers _ _, exec_answers _ _, exec_answers _ _, exec_answers _ _⟩

/-- StepRunsTheDecodedCommand: a command with words behind it. -/
theorem witness_StepRunsTheDecodedCommand :
    let s := ready.send [0x00000003#32, 7#32, 0x00000004#32]
    s.rst = none ∧ s.flt = false ∧ decode s.cmd = .ok (.nextChunk 7#32, [0x00000004#32]) ∧
      (Instr.nextChunk 7#32).wellFormed = true := by decide

/-- ChecksAreMadeInOrder: a whole command for each clause: halted; OP 0 and OP 5; reserved bits; LEN 0; no key; no IV; the
range past BUF; and a command that passes every check. -/
theorem witness_ChecksAreMadeInOrder :
    ((faulted 1#4).send [0x00000005#32]).flt = true ∧ ((faulted 1#4).send [0x00000005#32]).cmd = 0x00000005#32 :: [] ++ [] ∧
      ([] : List Word32).length = payloadWords ((0x00000005#32).extractLsb' 0 4) ∧
      ((0x00000000#32).extractLsb' 0 4).toNat = 0 ∧ 5 ≤ ((0x00000005#32).extractLsb' 0 4).toNat ∧
      ((0x00000013#32).extractLsb' 0 4).toNat = 3 ∧ (0x00000013#32).extractLsb' 4 28 ≠ 0#28 ∧
      [0#32, 0#32].length = payloadWords ((0x00000004#32).extractLsb' 0 4) ∧ [0#32, 0#32][1]? = some 0#32 ∧
      [0x3F0#32, 0x11#32][1]? ≠ some 0#32 ∧ blank.kv = false ∧ ({ blank with kv := true } : State).sv = false ∧
      ready.bufSize < ([0x3F0#32, 0x11#32].getD 0 0#32).toNat + ([0x3F0#32, 0x11#32].getD 1 0#32).toNat ∧
      ¬ ready.bufSize < ([0x3F0#32, 0x10#32].getD 0 0#32).toNat + ([0x3F0#32, 0x10#32].getD 1 0#32).toNat := by decide

/-- KeystreamLaw: right after SET_IV; in the middle of block 1, after 5 bytes; and a range inside BUF. -/
theorem witness_KeystreamLaw :
    (exec (.setIv katKey) ready = .next { ready with st := katKey, rsp := [0x00000000#32] }) ∧
      ((seeded ofbKey katKey).kv = true ∧ (seeded ofbKey katKey).sv = true ∧
        (seeded ofbKey katKey).st = nthBlock (seeded ofbKey katKey).w 0 katKey ∧
        0 + 16 = 16 * 0 + (seeded ofbKey katKey).pos.val) ∧
      (({ seeded ofbKey katKey with st := ofbB1, pos := 5 } : State).st = nthBlock (keyExpansion ofbKey) 1 katKey ∧
        5 + 16 = 16 * 1 + ({ seeded ofbKey katKey with st := ofbB1, pos := 5 } : State).pos.val) ∧
      (0x3F0#32).toNat + (0x10#32).toNat ≤ (seeded ofbKey katKey).bufSize ∧ Memory.wf (seeded ofbKey katKey).buf = true :=
  ⟨rfl, by decide +kernel, by decide +kernel, by decide, by decide⟩

/-- ApplyInAnyChunks: 20 bytes as 5, 0 and 15, ending exactly at BUF. -/
theorem witness_ApplyInAnyChunks :
    ready.kv = true ∧ ready.sv = true ∧ ready.flt = false ∧ (0x3EC#32).toNat + (20#32).toNat ≤ ready.bufSize ∧
      ([5#32, 0#32, 15#32].map BitVec.toNat).sum = (20#32).toNat := by decide

/-- ApplyTwiceRestores: 16 bytes at the end of a BUF of 0x400 bytes, and of one of 2^32 bytes. -/
theorem witness_ApplyTwiceRestores :
    Memory.wf (bufWith 0x3F0 katIn) = true ∧ (0x3F0#32).toNat + (0x10#32).toNat ≤ (0x3FF#32).toNat + 1 ∧
      (0xFFFFFFFF#32).toNat + (1#32).toNat ≤ (0xFFFFFFFF#32).toNat + 1 := by decide

/-- RekeyContinuesFromState: a stream in the middle of a block. -/
theorem witness_RekeyContinuesFromState : ({ ready with pos := 4 } : State).sv = true := by decide

/-- FaultsArePrecise: a step that faults, from a core without a fault. -/
theorem witness_FaultsArePrecise :
    blank.rst = none ∧ blank.flt = false ∧
      step (blank.send [0x00000000#32]) = .next { blank with flt := true, cause := 1#4, rsp := [0x00000011#32] } :=
  ⟨rfl, rfl, rfl⟩

/-- ReservedHeadersFault: OP 0, 5 and 15; and OP 1 and 4 with bit 4 and bit 31 set. -/
theorem witness_ReservedHeadersFault :
    blank.rst = none ∧ blank.flt = false ∧ (blank.send [0x00000000#32, 9#32]).cmd = 0x00000000#32 :: [9#32] ∧
      ((0x00000000#32).extractLsb' 0 4 = 0#4) ∧ 5 ≤ ((0x00000005#32).extractLsb' 0 4).toNat ∧
      5 ≤ ((0x0000000F#32).extractLsb' 0 4).toNat ∧
      (blank.send [0x80000004#32, 1#32, 2#32, 9#32]).cmd = 0x80000004#32 :: [1#32, 2#32] ++ [9#32] ∧
      [1#32, 2#32].length = payloadWords ((0x80000004#32).extractLsb' 0 4) ∧
      1 ≤ ((0x00000011#32).extractLsb' 0 4).toNat ∧ ((0x80000004#32).extractLsb' 0 4).toNat ≤ 4 ∧
      (0x00000011#32).extractLsb' 4 28 ≠ 0#28 ∧ (0x80000004#32).extractLsb' 4 28 ≠ 0#28 := by decide

/-- ApplyOutsideBufFaults: one byte past the end, and the sum that would wrap. -/
theorem witness_ApplyOutsideBufFaults :
    ready.kv = true ∧ ready.sv = true ∧ (1#32 ≠ 0#32 ∧ ready.bufSize < (0x400#32).toNat + (1#32).toNat) ∧
      2#32 ≠ 0#32 ∧ ready.bufSize < (0xFFFFFFFF#32).toNat + (2#32).toNat := by decide

/-- HaltedCoreAnswersHalted: F10, and a reserved OP. -/
theorem witness_HaltedCoreAnswersHalted :
    (faulted 1#4).rst = none ∧ (faulted 1#4).flt = true ∧
      ((faulted 1#4).send [0x00000004#32, 0#32, 0#32]).cmd = 0x00000004#32 :: [0#32, 0#32] ++ [] ∧
      [0#32, 0#32].length = payloadWords ((0x00000004#32).extractLsb' 0 4) ∧
      ((faulted 1#4).send [0x00000005#32, 3#32]).cmd = 0x00000005#32 :: [] ++ [3#32] ∧
      ([] : List Word32).length = payloadWords ((0x00000005#32).extractLsb' 0 4) := by decide

/-- FirstFaultIsKept: F10. -/
theorem witness_FirstFaultIsKept :
    (faulted 1#4).rst = none ∧ (faulted 1#4).flt = true ∧
      step ((faulted 1#4).send [0x00000004#32, 0#32, 0#32]) = .next { faulted 1#4 with rsp := [0x00000012#32] } :=
  ⟨rfl, rfl, rfl⟩

/-- OnlyResetClearsFlags: a step of each kind. -/
theorem witness_OnlyResetClearsFlags :
    (ready.rst = none ∧ ready.kv = true ∧ ready.sv = true ∧
      step (ready.send [0x00000005#32]) = .next { ready with flt := true, cause := 1#4, rsp := [0x00000011#32] }) ∧
      ((faulted 1#4).assertReset 0).rst ≠ none ∧
      step ((faulted 1#4).assertReset 0) = .next (takeReset 0 ((faulted 1#4).assertReset 0)) := by
  refine ⟨⟨rfl, rfl, rfl, rfl⟩, by decide, rfl⟩

/-- ResetCutsTheCommandOff: m = 0 and m past LEN on an APPLY that ends exactly at BUF; and an APPLY without a key. -/
theorem witness_ResetCutsTheCommandOff :
    (((ready.send [0x00000004#32, 0x3F0#32, 0x10#32]).assertReset 0).rst = some 0 ∧
      ((ready.send [0x00000004#32, 0x3F0#32, 0x10#32]).assertReset 99).rst = some 99) ∧
      decode (ready.send [0x00000004#32, 0x3F0#32, 0x10#32]).cmd = .ok (.apply 0x3F0#32 0x10#32, []) ∧
      ready.flt = false ∧ ready.kv = true ∧ ready.sv = true ∧ (0x3F0#32).toNat + (0x10#32).toNat ≤ ready.bufSize ∧
      Memory.wf ready.buf = true ∧ blank.kv = false := by decide

/-- BootNeedsKeyAndIv: LEN 1 is not 0, and both kinds of command are in its list. -/
theorem witness_BootNeedsKeyAndIv :
    (1#32 : Word32) ≠ 0#32 ∧ Instr.nextChunk 1#32 ∈ [Instr.nextChunk 1#32, Instr.apply 0#32 1#32] ∧
      Instr.apply 0#32 1#32 ∈ [Instr.nextChunk 1#32, Instr.apply 0#32 1#32] := by decide

/-- OnlySetKeyWritesRoundKeys: an executed SET_KEY; a halted one; and another command. -/
theorem witness_OnlySetKeyWritesRoundKeys :
    (blank.rst = none ∧ blank.flt = false ∧ decode (encode (.setKey katKey)) = .ok (.setKey katKey, []) ∧
      ∃ t, step (blank.send (encode (.setKey katKey))) = .next t) ∧
      ((faulted 1#4).flt = true ∧ ∃ t, step ((faulted 1#4).send (encode (.setKey katKey))) = .next t) ∧
      decode [0x00000005#32] = .error .illegalOpcode ∧ ∃ t, step (blank.send [0x00000005#32]) = .next t := by
  refine ⟨⟨rfl, rfl, by decide, _, rfl⟩, ⟨rfl, _, rfl⟩, by decide, _, rfl⟩

/-- StepKeepsInv: a state in the middle of a block with a byte in BUF has the invariant and steps. -/
theorem witness_StepKeepsInv :
    ({ ready with pos := 15, buf := [(0x3FF, 0x01#8)], cmd := [0x00000003#32, 1#32] } : State).Inv ∧
      ∃ t, step { ready with pos := 15, buf := [(0x3FF, 0x01#8)], cmd := [0x00000003#32, 1#32] } = .next t := by
  refine ⟨⟨fun _ _ => ⟨rfl, rfl⟩, fun _ => rfl, fun h => absurd h (by decide), by decide, by decide⟩, ?_⟩
  exact exec_answers (.nextChunk 1#32) { ready with pos := 15, buf := [(0x3FF, 0x01#8)], cmd := [] }

/-- UnwrittenRegistersStayHidden: two cores that differ in W, State, Scratch, POS and the reset counter, one waiting. -/
theorem witness_UnwrittenRegistersStayHidden :
    blank.SameToHost { blank with w := keyExpansion katKey, st := katIn, scr := katIn, pos := 3, resets := 7 } ∧
      step blank = .fault .awaitingCommand ∧ ∃ t, step (blank.send [0x00000003#32, 1#32]) = .next t :=
  ⟨⟨rfl, rfl, rfl, rfl, rfl, rfl, rfl, rfl, rfl, fun h => absurd h (by decide), fun h => absurd h (by decide),
    fun h => absurd h (by decide)⟩, rfl, _, rfl⟩

/-- OneResponsePerCommand: a halted core has the invariant and answers. -/
theorem witness_OneResponsePerCommand :
    (faulted 5#4).Inv ∧ (faulted 5#4).rst = none ∧ ∃ t, step ((faulted 5#4).send [0x00000005#32]) = .next t :=
  ⟨⟨fun h => absurd h (by decide), fun h => absurd h (by decide), fun _ => by decide, rfl, by decide⟩, rfl, _, rfl⟩

/-- BufIsPlainMemory: a host store to the last byte of a BUF that holds one. -/
theorem witness_BufIsPlainMemory :
    Memory.wf [(0x3FF, 0x01#8)] = true ∧
      State.hostStore { blank with buf := [(0x3FF, 0x01#8)] } 0x3FF 0x00#8 = some { blank with buf := [] } ∧
      (0 : Nat) ≠ 0x3FF := by decide

/-- BlockRunsOnTheChannel: the words of P1 with a word behind them. -/
theorem witness_BlockRunsOnTheChannel :
    let s := blank.send (encode (.setKey katKey) ++ encode (.setIv katIn) ++ encode (.nextChunk 16#32) ++ [5#32])
    s.rst = none ∧ s.flt = false ∧
      s.cmd = encode (.setKey katKey) ++ encode (.setIv katIn) ++ encode (.nextChunk 16#32) ++ [5#32] := by decide

/-- HostKeepsOffBufDuringACommand: a word on CMD; a pending reset; the first address past BUF; the last of BUF with nothing
outstanding; and an APPLY that ends exactly at BUF. -/
theorem witness_HostKeepsOffBufDuringACommand :
    (ready.send [0x00000004#32]).cmd ≠ [] ∧ (ready.assertReset 0).rst ≠ none ∧ ready.bufSize ≤ 0x400 ∧
      (ready.cmd = [] ∧ ready.rst = none ∧ 0x3FF < ready.bufSize) ∧
      ready.flt = false ∧ ready.kv = true ∧ ready.sv = true ∧ (0x3F0#32).toNat + (0x10#32).toNat ≤ ready.bufSize ∧
      Memory.wf ready.buf = true := by decide

/-- HostMovesKeepInv: a core in the middle of a block, and an admitted write to the last byte of BUF. -/
theorem witness_HostMovesKeepInv :
    ({ ready with pos := 15 } : State).Inv ∧
      ({ ready with pos := 15 } : State).hostStore 0x3FF 0x01#8 =
        some { ready with pos := 15, buf := [(0x3FF, 0x01#8)] } :=
  ⟨⟨fun _ _ => ⟨rfl, rfl⟩, fun _ => rfl, fun h => absurd h (by decide), rfl, by decide⟩, by decide⟩

/-- DecodeOfEncode and EncodeOfDecode: a well-formed command, and its words with a word behind them. -/
theorem witness_DecodeOfEncode :
    (Instr.apply 0#32 0xFFFFFFFF#32).wellFormed = true ∧
      decode [0x00000004#32, 0#32, 0xFFFFFFFF#32, 9#32] = .ok (.apply 0#32 0xFFFFFFFF#32, [9#32]) := by decide

/-- IllegalEncodingsAreTwoKinds: a whole command with OP 15, one with OP 1 and bit 31 set, and a legal one. -/
theorem witness_IllegalEncodingsAreTwoKinds :
    ([] : List Word32).length = payloadWords ((0x0000000F#32).extractLsb' 0 4) ∧
      [1#32, 2#32, 3#32, 4#32].length = payloadWords ((0x80000001#32).extractLsb' 0 4) ∧
      [1#32].length = payloadWords ((0x00000003#32).extractLsb' 0 4) := by decide

/-- ChunkPayloadPacking: the last byte of the second word of five bytes. -/
theorem witness_ChunkPayloadPacking :
    3 < 4 ∧ 1 < (packBytes [1#8, 2#8, 3#8, 4#8, 5#8]).length := by decide

end Sys2Proof.Tests
end

section
/-! The round-key file (10_state.md R24, R32): what a round key is made of, and which step writes W. -/

namespace Sys2Proof

/-- A key-schedule word is the list of its four bytes. -/
theorem KWord.toList_eq (v : KWord) : v.toList = [v[0], v[1], v[2], v[3]] := by
  refine List.ext_getElem (by simp) fun i hi _ => ?_
  have hi : i < 4 := by simpa using hi
  interval_cases i <;> rfl

/-- The decoder on a channel that holds a whole command: what its header and payload decode to. -/
theorem decode_of_takeCommand {ws p rest : List Word32} {h : Word32} (hc : takeCommand ws = some (h, p, rest)) :
    decode ws = (decodeCommand h p).map fun i => (i, rest) := by
  obtain ⟨rfl, hp⟩ := eq_of_takeCommand hc
  exact decode_append rest hp

end Sys2Proof

namespace Sys2Proof.Machine

/-! ## Round keys as words of W -/

/-- Byte i of round key r is byte `i mod 4` of word `4r + i div 4`. -/
theorem roundKey_getElem (w : KeyWords) (r : Fin 11) {i : Nat} (hi : i < 16) :
    (roundKey w r)[i] = w[4 * r.val + i / 4][i % 4] := by
  simp [roundKey]

/-- Byte k of column c of round key r is byte k of word `4r + c`. -/
theorem roundKey_column (w : KeyWords) (r : Fin 11) {c k : Nat} (hc : c < 4) (hk : k < 4) :
    (roundKey w r)[4 * c + k] = w[4 * r.val + c][k] := by
  have hdiv : (4 * c + k) / 4 = c := by omega
  have hmod : (4 * c + k) % 4 = k := by omega
  simp [roundKey_getElem, hdiv, hmod]

/-- The bytes of a round key are those of its four words in order. -/
theorem roundKey_toList (w : KeyWords) (r : Fin 11) :
    (roundKey w r).toList =
      w[4 * r.val].toList ++ w[4 * r.val + 1].toList ++ w[4 * r.val + 2].toList ++ w[4 * r.val + 3].toList := by
  simp only [KWord.toList_eq, roundKey, Vector.toList_ofFn]
  rfl

/-- Settles O8: the bytes of a round key are read off its definition, and a column is four of them. -/
theorem roundKeyIsFourWords : Obligations.RoundKeyIsFourWords := fun w r =>
  ⟨roundKey_toList w r, fun i => roundKey_getElem w r i.isLt, fun c k => roundKey_column w r c.isLt k.isLt⟩

/-! ## Who writes W -/

@[simp] theorem State.afterFault_w (s : State) (c : BitVec 4) : (s.afterFault c).w = s.w := rfl

@[simp] theorem State.afterHalted_w (s : State) : s.afterHalted.w = s.w := rfl

@[simp] theorem takeChunk_w (n : Nat) (s : State) : (takeChunk n s).2.2.w = s.w := by
  obtain ⟨p, hs, -⟩ := takeChunk_spec n s
  simp [hs]

@[simp] theorem applyRange_w (a n : Nat) (s : State) : (applyRange a n s).w = s.w := by
  obtain ⟨st, scr, pos, buf, hs⟩ := applyRange_frame a n s
  simp [hs]

/-- A command either is a `SET_KEY` and writes the expansion of its key to W, or leaves W alone. -/
theorem exec_w_cases {i : Instr} {s t : State} (e : exec i s = .next t) :
    (∃ key, i = .setKey key ∧ t.w = keyExpansion key) ∨ ((∀ key, i ≠ .setKey key) ∧ t.w = s.w) := by
  cases i with
  | setKey key => cases e; exact .inl ⟨key, rfl, rfl⟩
  | setIv iv => cases e; exact .inr ⟨nofun, rfl⟩
  | nextChunk n =>
    refine .inr ⟨nofun, ?_⟩
    rcases exec_nextChunk n s with ⟨c, -, h⟩ | ⟨-, h⟩ <;> cases h.symm.trans e
    · exact State.afterFault_w s c.code
    · exact takeChunk_w n.toNat s
  | apply addr len =>
    refine .inr ⟨nofun, ?_⟩
    rcases exec_apply addr len s with ⟨c, -, h⟩ | ⟨-, h⟩ <;> cases h.symm.trans e
    · exact State.afterFault_w s c.code
    · exact applyRange_w addr.toNat len.toNat s

/-- A step with no reset pending either executes a `SET_KEY` and writes the expansion of its key to W, or executes none
and leaves W alone. -/
theorem step_w_cases {s t : State} (hr : s.rst = none) (e : step s = .next t) :
    (s.flt = false ∧ ∃ key rest, decode s.cmd = .ok (.setKey key, rest) ∧ t.w = keyExpansion key) ∨
      ((s.flt = true ∨ ∀ key rest, decode s.cmd ≠ .ok (.setKey key, rest)) ∧ t.w = s.w) := by
  rcases step_cases e with ⟨m, hm, -⟩ | ⟨-, h, p, rest, hc, hcase⟩
  · cases hr.symm.trans hm
  rw [decode_of_takeCommand hc]
  rcases hcase with ⟨hf, rfl⟩ | ⟨-, hd, rfl⟩ | ⟨-, hd, rfl⟩ | ⟨hf, i, hd, hx⟩
  · exact .inr ⟨.inl hf, rfl⟩
  · exact .inr ⟨.inr (by simp [hd, Except.map]), rfl⟩
  · exact .inr ⟨.inr (by simp [hd, Except.map]), rfl⟩
  · rcases exec_w_cases hx with ⟨key, rfl, hw⟩ | ⟨hne, hw⟩
    · exact .inl ⟨hf, key, rest, by rw [hd]; rfl, hw⟩
    · exact .inr ⟨.inr (by simp [hd, Except.map, hne]), hw⟩

/-- Settles O38: of the two cases of a step on W, what CMD and FLT hold tells which one it is. -/
theorem onlySetKeyWritesRoundKeys : Obligations.OnlySetKeyWritesRoundKeys := by
  intro s t hr e
  rcases step_w_cases hr e with ⟨hf, key, rest, hd, hw⟩ | ⟨hno, hw⟩
  · refine ⟨fun key' rest' _ hd' => ?_, fun hno => ?_⟩
    · cases hd.symm.trans hd'
      exact hw
    · rcases hno with hno | hf'
      · exact absurd hd (hno key rest)
      · cases hf.symm.trans hf'
  · refine ⟨fun key rest hf hd => ?_, fun _ => hw⟩
    rcases hno with hf' | hno
    · cases hf.symm.trans hf'
    · exact absurd hd (hno key rest)

end Sys2Proof.Machine
end

section
/-! The payload of `SET_KEY` and `SET_IV` (30_encoding.md R74): a block is four channel words, byte k of word j being
byte `4j + k`. -/

namespace Sys2Proof

/-- Byte k of a packed word is its k-th argument. -/
theorem wordByte_packWord (b0 b1 b2 b3 : Byte) (k : Fin 4) :
    wordByte (packWord b0 b1 b2 b3) k.val = (#v[b0, b1, b2, b3] : Vector Byte 4)[k] := by
  match k with
  | 0 => exact wordByte_packWord_zero b0 b1 b2 b3
  | 1 => exact wordByte_packWord_one b0 b1 b2 b3
  | 2 => exact wordByte_packWord_two b0 b1 b2 b3
  | 3 => exact wordByte_packWord_three b0 b1 b2 b3

/-- Packing: byte k of payload word j is byte `4j + k` of the block. -/
theorem wordByte_blockWord (b : Block) (j k : Fin 4) : wordByte (blockWord b j) k.val = b[4 * j.val + k.val] := by
  rw [blockWord, wordByte_packWord]
  match k with
  | 0 | 1 | 2 | 3 => rfl

/-- Unpacking: byte `4j + k` of the block is byte k of payload word j. -/
theorem unpackBlock_getElem (w0 w1 w2 w3 : Word32) (j k : Fin 4) :
    (unpackBlock w0 w1 w2 w3)[4 * j.val + k.val] = wordByte (#v[w0, w1, w2, w3] : Vector Word32 4)[j] k.val := by
  match j, k with
  | 0, 0 | 0, 1 | 0, 2 | 0, 3 | 1, 0 | 1, 1 | 1, 2 | 1, 3
  | 2, 0 | 2, 1 | 2, 2 | 2, 3 | 3, 0 | 3, 1 | 3, 2 | 3, 3 => rfl

/-- Payload word j of an unpacked block is the word it was unpacked from, as its four bytes are that word's. -/
theorem blockWord_unpackBlock (w0 w1 w2 w3 : Word32) (j : Fin 4) :
    blockWord (unpackBlock w0 w1 w2 w3) j = (#v[w0, w1, w2, w3] : Vector Word32 4)[j] := by
  match j with
  | 0 => exact packWord_wordByte w0
  | 1 => exact packWord_wordByte w1
  | 2 => exact packWord_wordByte w2
  | 3 => exact packWord_wordByte w3

/-- Packing the block of four payload words gives those words. -/
theorem packBlock_unpackBlock (w0 w1 w2 w3 : Word32) : packBlock (unpackBlock w0 w1 w2 w3) = [w0, w1, w2, w3] := by
  simp [packBlock, blockWord_unpackBlock]

/-- Settles O48: the byte laws of packing and of unpacking, and that packing undoes unpacking. -/
theorem payloadIsLittleEndian : Obligations.PayloadIsLittleEndian :=
  ⟨wordByte_blockWord, unpackBlock_getElem, packBlock_unpackBlock⟩

end Sys2Proof
end

section
/-! GF(2^8) and the substitution box (40_gf_sbox.md R100 to R107): the multipliers are linear and doubling loses nothing;
the S-box is an affine bijection after the field inverse, which is a bijection too. -/

namespace Sys2Proof.Machine

/-! ## The multipliers -/

/-- Doubling is a shift and a reduction that bit 7 selects. -/
theorem mul2_eq (x : Byte) : mul2 x = (x <<< 1) ^^^ (if x.msb then 0x1B#8 else 0x00#8) := by
  have hmsb : x.msb = x.getLsbD 7 := BitVec.msb_eq_getLsbD_last x
  simp only [mul2, ← hmsb]
  cases x.msb <;> simp

/-- Bit 7 of a byte is set from 128 on. -/
theorem msb_iff_le_toNat (x : Byte) : x.msb = true ↔ 128 ≤ x.toNat := by
  simp [BitVec.msb_eq_decide]

/-- Doubling is linear over XOR, as the shift and the selected reduction both are. -/
theorem mul2_xor (a b : Byte) : mul2 (a ^^^ b) = mul2 a ^^^ mul2 b := by
  have hshift : (a ^^^ b) <<< 1 = (a <<< 1) ^^^ (b <<< 1) := BitVec.shiftLeft_xor_distrib a b 1
  have hreduce : ∀ p q : Bool, (if p ^^ q then 0x1B#8 else 0x00#8) =
      (if p then 0x1B#8 else 0x00#8) ^^^ (if q then 0x1B#8 else 0x00#8) := by decide
  simp only [mul2_eq, hshift, BitVec.msb_xor, hreduce]
  ac_rfl

/-- Tripling is linear over XOR, as doubling is. -/
theorem mul3_xor (a b : Byte) : mul3 (a ^^^ b) = mul3 a ^^^ mul3 b := by
  simp only [mul3, mul2_xor]
  ac_rfl

/-- Bit 0 of a double is bit 7 of the byte: the shift clears it and the reduction sets it. -/
theorem mul2_getLsbD_zero (x : Byte) : (mul2 x).getLsbD 0 = x.msb := by
  cases h : x.msb <;> simp [mul2_eq, h]

/-- Only 0 doubles to 0: there is no reduction in such a double, and the shift loses no bit. -/
theorem eq_zero_of_mul2_eq_zero {x : Byte} (h : mul2 x = 0x00#8) : x = 0x00#8 := by
  have hmsb : x.msb = false := by simpa [h] using (mul2_getLsbD_zero x).symm
  have hshift : x <<< 1 = 0x00#8 := by simpa [mul2_eq, hmsb] using h
  have hlt : ¬ 128 ≤ x.toNat := by simp [← msb_iff_le_toNat, hmsb]
  bv_omega

/-- Doubling is injective: it is linear and only 0 doubles to 0. -/
theorem mul2_injective : Function.Injective mul2 := fun a b h => by
  have hzero : mul2 (a ^^^ b) = 0x00#8 := by rw [mul2_xor, h, BitVec.xor_self]
  exact BitVec.xor_eq_zero_iff.mp (eq_zero_of_mul2_eq_zero hzero)

/-- Settles O1: the reduction is selected by bit 7, and an injection of a finite type into itself is a bijection. -/
theorem multipliersByTwoAndThree : Obligations.MultipliersByTwoAndThree := by
  refine ⟨fun x => ?_, Finite.injective_iff_bijective.mp mul2_injective, ?_⟩
  · simp only [mul2_eq, msb_iff_le_toNat]
  · exact ⟨rfl, rfl, rfl, rfl, rfl, rfl, rfl, fun _ => rfl, rfl, rfl, rfl, rfl, rfl⟩

/-- Settles O2: both multipliers are linear over XOR. -/
theorem multipliersAreLinear : Obligations.MultipliersAreLinear :=
  fun a b => ⟨(mul2_xor a b).symm, (mul3_xor a b).symm⟩

/-! ## The field inverse and the affine map -/

/-- The inverse of the affine map `A` of R105. -/
def affineMapInv (b : Byte) : Byte := b.rotateLeft 1 ^^^ b.rotateLeft 3 ^^^ b.rotateLeft 6 ^^^ 0x05#8

/-- The byte that `A` takes to `SBOX(x)`. It is the field inverse of x, and 0 for 0 (`fieldMul_fieldInv`). -/
def fieldInv (x : Byte) : Byte := affineMapInv (sbox x)

theorem affineMap_affineMapInv : ∀ b : Byte, affineMap (affineMapInv b) = b := by decide +kernel

/-- Each of the 256 entries of the table, taken back through `A`, is the field inverse of its index. -/
theorem fieldMul_fieldInv : ∀ x : Byte, x ≠ 0x00#8 → fieldMul x (fieldInv x) = 0x01#8 := by decide +kernel

theorem fieldInv_zero : fieldInv 0x00#8 = 0x00#8 := by decide +kernel

theorem fieldInv_involutive : Function.Involutive fieldInv := by
  unfold Function.Involutive
  decide +kernel

/-- The S-box is the affine map of the field inverse. -/
theorem sbox_eq_affineMap_fieldInv (x : Byte) : sbox x = affineMap (fieldInv x) :=
  (affineMap_affineMapInv (sbox x)).symm

/-- Settles O4: y is the field inverse of x, which for 0 is read as 0. -/
theorem sboxIsInverseThenAffine : Obligations.SboxIsInverseThenAffine := by
  refine ⟨fun x hx => ⟨fieldInv x, fieldMul_fieldInv x hx, sbox_eq_affineMap_fieldInv x⟩, ?_⟩
  rw [sbox_eq_affineMap_fieldInv, fieldInv_zero]

/-! ## The S-box -/

/-- Byte `16 r + c` is entry c of row r of the table. -/
theorem sbox_row_column (r c : Fin 16) :
    sbox (BitVec.ofNat 8 (16 * r.val + c.val)) = sboxRows[r].extractLsb' (8 * (15 - c.val)) 8 := by
  have hlt : (16 * r.val + c.val) % 256 = 16 * r.val + c.val := by omega
  have hrow : (16 * r.val + c.val) / 16 = r.val := by omega
  have hcol : (16 * r.val + c.val) % 16 = c.val := by omega
  simp [sbox, hlt, hrow, hcol]

/-- The S-box is injective: what it gives determines the field inverse, and that determines the byte. -/
theorem sbox_injective : Function.Injective sbox := fun _ _ h =>
  fieldInv_involutive.injective (congrArg affineMapInv h)

theorem sbox_ne_self : ∀ x : Byte, sbox x ≠ x := by decide +kernel

/-- The corner values and the example of R103. -/
theorem sbox_values : sbox 0x52#8 = 0x00#8 ∧ sbox 0x00#8 = 0x63#8 ∧ sbox 0xFF#8 = 0x16#8 ∧ sbox 0x53#8 = 0xED#8 := by
  decide +kernel

/-- Settles O3: an injection of the bytes into themselves is a bijection, and 0 has no second preimage. -/
theorem sboxIsABijection : Obligations.SboxIsABijection := by
  obtain ⟨hzero, hvalues⟩ := sbox_values
  refine ⟨sbox_row_column, Finite.injective_iff_bijective.mp sbox_injective, fun x => ?_, sbox_ne_self, hvalues⟩
  rw [← hzero, sbox_injective.eq_iff]

end Sys2Proof.Machine
end

section
/-! The key schedule (41_key_schedule.md R120 to R126): the round constant doubles in the field, the word operations byte
by byte, and the recurrence that makes each word from the words one and four before it. -/

namespace Sys2Proof

theorem KWord.xor_getElem (a b : KWord) (j : Fin 4) : (KWord.xor a b)[j] = a[j] ^^^ b[j] := by
  simp [KWord.xor]

end Sys2Proof

namespace Sys2Proof.Machine

/-! ## The round constant -/

/-- On the low byte a step of the 9-bit working value is `mul2`: the bit it tests is bit 7 before the shift, and the low
byte of 0x11B is 0x1B. -/
theorem rconStep_setWidth (c : BitVec 9) : (rconStep c).setWidth 8 = mul2 (c.setWidth 8) := by
  have hshift : (c <<< 1).setWidth 8 = c.setWidth 8 <<< 1 := BitVec.setWidth_shiftLeft_of_le (by decide)
  have htest : (c <<< 1).getLsbD 8 = (c.setWidth 8).getLsbD 7 := by simp
  unfold rconStep mul2
  rw [htest]
  split
  · rw [BitVec.setWidth_xor, hshift]
    rfl
  · exact hshift

/-- Each round constant from the second on is the double of the one before. -/
theorem rcon_eq_mul2 {a : Nat} (ha : 2 ≤ a) : rcon a = mul2 (rcon (a - 1)) := by
  obtain ⟨n, rfl⟩ : ∃ n, a = n + 2 := ⟨a - 2, by omega⟩
  exact rconStep_setWidth (rconIter n)

/-- Settles O5: the ten values are computed, and the doubling holds beyond the table too. -/
theorem roundConstantValues : Obligations.RoundConstantValues :=
  ⟨rfl, rfl, rfl, rfl, rfl, rfl, rfl, rfl, rfl, rfl, fun _ ha _ => rcon_eq_mul2 ha⟩

/-! ## The word operations -/

/-- Byte i of a rotated word is byte `(i + 1) mod 4` of the word. -/
theorem rotWord_getElem (t : KWord) (i : Fin 4) : (rotWord t)[i] = t[(i.val + 1) % 4]'(by omega) := by
  match i with
  | 0 | 1 | 2 | 3 => rfl

/-- Four rotations bring every byte back to its place. -/
theorem rotWord_four (t : KWord) : rotWord (rotWord (rotWord (rotWord t))) = t := by
  refine Vector.ext fun i hi => ?_
  match i, hi with
  | 0, _ | 1, _ | 2, _ | 3, _ => rfl

/-- Byte i of a substituted word is the S-box of byte i of the word. -/
theorem subWord_getElem (t : KWord) (i : Fin 4) : (subWord t)[i] = sbox t[i] := by
  match i with
  | 0 | 1 | 2 | 3 => rfl

/-- The corner case and the example of R123. -/
theorem subWord_values :
    subWord #v[0x00#8, 0x00#8, 0x00#8, 0x00#8] = #v[0x63#8, 0x63#8, 0x63#8, 0x63#8] ∧
      subWord #v[0xcf#8, 0x4f#8, 0x3c#8, 0x09#8] = #v[0x8a#8, 0x84#8, 0xeb#8, 0x01#8] := by
  decide +kernel

/-- Settles O6: both operations are known byte by byte, and the rest are their corner cases and examples. -/
theorem wordOperations : Obligations.WordOperations :=
  ⟨rotWord_getElem, fun _ => rfl, rotWord_four, rfl, subWord_getElem, subWord_values⟩

/-! ## The key expansion -/

theorem xorFirst_getElem (t : KWord) (b : Byte) (j : Fin 4) :
    (xorFirst t b)[j] = t[j] ^^^ (if j.val = 0 then b else 0x00#8) := by
  match j with
  | 0 => rfl
  | 1 | 2 | 3 => exact BitVec.xor_zero.symm

/-- Byte j of `temp`: at a multiple of 4 from the rotated and substituted word before, with the round constant in byte 0. -/
theorem scheduleTemp_getElem (i : Nat) (prev : KWord) (j : Fin 4) :
    (scheduleTemp i prev)[j] =
      if i % 4 = 0 then (subWord (rotWord prev))[j] ^^^ (if j.val = 0 then rcon (i / 4) else 0x00#8) else prev[j] := by
  unfold scheduleTemp
  split
  · exact xorFirst_getElem _ _ j
  · rfl

/-- The first four words are those of the key. -/
theorem keyExpansion_keyWord (k : Block) (i : Fin 4) : (keyExpansion k)[i.val] = keyWord k i := by
  match i with
  | 0 | 1 | 2 | 3 => rfl

theorem keyWord_getElem (k : Block) (i j : Fin 4) : (keyWord k i)[j] = k[4 * i.val + j.val] := by
  match j with
  | 0 | 1 | 2 | 3 => rfl

/-- Byte j of word i, for the first four words, is byte `4i + j` of the key. -/
theorem keyExpansion_key_byte (k : Block) (i j : Fin 4) : (keyExpansion k)[i.val][j] = k[4 * i.val + j.val] := by
  rw [keyExpansion_keyWord, keyWord_getElem]

/-- Byte j of each later word, from the words one and four before it. -/
theorem keyExpansion_succ_byte (k : Block) (i : Nat) (hi : i + 4 < 44) (j : Fin 4) :
    (keyExpansion k)[i + 4][j] =
      (keyExpansion k)[i][j] ^^^
        (if i % 4 = 0 then
          (subWord (rotWord (keyExpansion k)[i + 3]))[j] ^^^ (if j.val = 0 then rcon ((i + 4) / 4) else 0x00#8)
        else (keyExpansion k)[i + 3][j]) := by
  rw [keyExpansion_succ k i hi, KWord.xor_getElem, scheduleTemp_getElem, Nat.add_mod_right]

/-- Round key 0 is the key. -/
theorem roundKey_keyExpansion_zero (k : Block) : roundKey (keyExpansion k) 0 = k := by
  refine Vector.ext fun i hi => ?_
  have hbyte := keyExpansion_key_byte k ⟨i / 4, by omega⟩ ⟨i % 4, by omega⟩
  simpa [roundKey_getElem, Nat.div_add_mod] using hbyte

/-- The corner case of R124: round key 1 of the all-zero key. -/
theorem keyExpansion_zero_words :
    ∀ c : Fin 4, (keyExpansion (Vector.replicate 16 0x00#8))[4 + c.val] = #v[0x62#8, 0x63#8, 0x63#8, 0x63#8] := by
  decide +kernel

/-- The example of R124: round key 10 of the key 00 01 .. 0f. -/
theorem roundKey_ten_example :
    roundKey (keyExpansion #v[0x00#8, 0x01#8, 0x02#8, 0x03#8, 0x04#8, 0x05#8, 0x06#8, 0x07#8,
        0x08#8, 0x09#8, 0x0a#8, 0x0b#8, 0x0c#8, 0x0d#8, 0x0e#8, 0x0f#8]) 10 =
      #v[0x13#8, 0x11#8, 0x1d#8, 0x7f#8, 0xe3#8, 0x94#8, 0x4a#8, 0x17#8,
        0xf3#8, 0x07#8, 0xa7#8, 0x8b#8, 0x4d#8, 0x2b#8, 0x30#8, 0xc5#8] := by
  decide +kernel

/-- Settles O7: the first four words are the key's, each later word is one XOR by `keyExpansion_succ`, and the two keys of
R124 are computed. -/
theorem keyExpansionRecurrence : Obligations.KeyExpansionRecurrence := fun k =>
  ⟨keyExpansion_key_byte k, keyExpansion_succ_byte k, roundKey_keyExpansion_zero k,
    fun hk => hk ▸ keyExpansion_zero_words, fun hk => hk ▸ roundKey_ten_example⟩

end Sys2Proof.Machine
end

section
/-! The round transform (42_round_transform.md R140 to R147): AddRoundKey, the row rotation and MixColumn byte by byte,
the rounds through Scratch, and the cipher as a bijection on blocks. -/

namespace Sys2Proof

/-- With associativity and commutativity, sorts a XOR of bytes so that equal ones meet and cancel. -/
theorem xor_left_comm (a b c : Byte) : a ^^^ (b ^^^ c) = b ^^^ (a ^^^ c) := by ac_rfl

/-- Two key-schedule words with the same four bytes are equal. -/
theorem KWord.ext_getElem {a b : KWord} (h : ∀ r : Fin 4, a[r] = b[r]) : a = b :=
  Vector.ext fun i hi => h ⟨i, hi⟩

/-- Two blocks with the same sixteen bytes are equal. -/
theorem Block.ext_getElem {a b : Block} (h : ∀ i : Fin 16, a[i] = b[i]) : a = b :=
  Vector.ext fun i hi => h ⟨i, hi⟩

/-- There are finitely many blocks: a block is a function from the sixteen byte indices. -/
theorem Block.finite : Finite Block :=
  Finite.of_injective (fun (b : Block) (i : Fin 16) => b[i]) fun _ _ h => Block.ext_getElem (congrFun h)

end Sys2Proof

namespace Sys2Proof.Machine

/-! ## AddRoundKey and the row rotation -/

theorem addRoundKey_getElem (rk s : Block) (i : Fin 16) : (addRoundKey rk s)[i] = s[i] ^^^ rk[i] := by
  simp [addRoundKey, Block.xor]

/-- A zero round key leaves the State unchanged. -/
theorem addRoundKey_zero (s : Block) : addRoundKey (Vector.replicate 16 0x00#8) s = s :=
  Block.ext_getElem fun i => by rw [addRoundKey_getElem]; simp

/-- XOR with a fixed round key loses nothing, byte by byte. -/
theorem addRoundKey_injective (rk : Block) : Function.Injective (addRoundKey rk) := fun s t h =>
  Block.ext_getElem fun i => by
    have hbyte : (addRoundKey rk s)[i] = (addRoundKey rk t)[i] := by rw [h]
    rwa [addRoundKey_getElem, addRoundKey_getElem, BitVec.xor_left_inj] at hbyte

/-- The row rotation reads every byte of the State. -/
theorem srcIndex_surjective : ∀ i : Fin 16, ∃ r c : Fin 4, srcIndex r c = i := by decide

/-- Settles O9: AddRoundKey is known byte by byte, and the indices and the example are computed. -/
theorem addRoundKeyAndSourceIndex : Obligations.AddRoundKeyAndSourceIndex :=
  ⟨addRoundKey_getElem, addRoundKey_zero, fun _ _ => rfl, by decide, by decide, by decide⟩

/-! ## MixColumn -/

@[simp] theorem mul2_zero : mul2 0x00#8 = 0x00#8 := rfl

/-- The four equations of R143 as one, the rows taken modulo 4: tripling is doubling and adding. -/
theorem mixColumn_getElem (x : KWord) (r : Fin 4) :
    (mixColumn x)[r] = mul2 (x[r] ^^^ x[r + 1]) ^^^ x[r + 1] ^^^ x[r + 2] ^^^ x[r + 3] := by
  match r with
  | 0 | 1 | 2 | 3 => simp [mixColumn, mul3, mul2_xor]; ac_rfl

/-- MixColumn is linear over XOR, as doubling is. -/
theorem mixColumn_xor (x y : KWord) : mixColumn (KWord.xor x y) = KWord.xor (mixColumn x) (mixColumn y) := by
  refine KWord.ext_getElem fun r => ?_
  simp only [mixColumn_getElem, KWord.xor_getElem, mul2_xor]
  ac_rfl

/-- A column of four equal bytes is a fixed point: what is doubled is 0, and three equal bytes XOR to one. -/
theorem mixColumn_equal_bytes (c : Byte) : mixColumn #v[c, c, c, c] = #v[c, c, c, c] := by
  have hrow : ∀ r : Fin 4, #v[c, c, c, c][r] = c := fun | 0 | 1 | 2 | 3 => rfl
  refine KWord.ext_getElem fun r => ?_
  simp only [mixColumn_getElem, hrow]
  simp

/-- Settles O10: the equations are the definition's, linearity is that of doubling, and the two examples are
computed. -/
theorem mixColumnIsLinear : Obligations.MixColumnIsLinear :=
  ⟨fun _ _ _ _ => rfl, mixColumn_xor, mixColumn_equal_bytes, by decide, by decide⟩

/-- MixColumn twice adds to each byte four times its XOR with the byte two rows on. -/
theorem mixColumn_twice_getElem (x : KWord) (r : Fin 4) :
    (mixColumn (mixColumn x))[r] = x[r] ^^^ mul2 (mul2 (x[r] ^^^ x[r + 2])) := by
  simp only [mixColumn_getElem, mul2_xor, add_assoc, Fin.reduceAdd, add_zero]
  generalize x[r] = a, x[r + 1] = b, x[r + 2] = c, x[r + 3] = d
  simp [BitVec.xor_assoc, BitVec.xor_comm, xor_left_comm]

/-- MixColumn four times is the identity: `x[r] ^ x[r + 2]` is the same after two, so the second two add what the first two
added and cancel it. -/
theorem mixColumn_four_times (x : KWord) : mixColumn (mixColumn (mixColumn (mixColumn x))) = x := by
  refine KWord.ext_getElem fun r => ?_
  simp only [mixColumn_twice_getElem, mul2_xor, add_assoc, Fin.reduceAdd, add_zero]
  generalize x[r] = a, x[r + 2] = c
  simp [BitVec.xor_assoc, BitVec.xor_comm]

/-- MixColumn is injective: three more of it take it back. -/
theorem mixColumn_injective : Function.Injective mixColumn :=
  Function.LeftInverse.injective (g := mixColumn ∘ mixColumn ∘ mixColumn) mixColumn_four_times

/-! ## The rounds -/

theorem ofColumns_getElem (col : Fin 4 → KWord) (c r : Fin 4) : (ofColumns col)[4 * c.val + r.val] = (col c)[r] := by
  have hdiv : (4 * c.val + r.val) / 4 = c.val := by omega
  have hmod : (4 * c.val + r.val) % 4 = r.val := by omega
  simp [ofColumns, hdiv, hmod]

/-- A block determines its columns. -/
theorem ofColumns_injective : Function.Injective ofColumns := fun f g h =>
  funext fun c => KWord.ext_getElem fun r => by rw [← ofColumns_getElem, ← ofColumns_getElem, h]

/-- Byte r of the substituted column c is the S-box of the byte at `SrcIndex(r, c)` (R142). -/
theorem subColumn_getElem (s : Block) (c r : Fin 4) : (subColumn s c)[r] = sbox s[srcIndex r c] := by
  match r with
  | 0 | 1 | 2 | 3 => rfl

/-- The four substituted columns determine the State: every byte is read, and the S-box is injective. -/
theorem subColumn_injective : Function.Injective subColumn := fun s t h =>
  Block.ext_getElem fun i => by
    obtain ⟨r, c, rfl⟩ := srcIndex_surjective i
    apply sbox_injective
    rw [← subColumn_getElem, ← subColumn_getElem, h]

/-- Byte r of column c after a round 1..9. -/
theorem fullRound_getElem (rk s : Block) (c r : Fin 4) :
    (fullRound rk s)[4 * c.val + r.val] = (mixColumn (subColumn s c))[r] ^^^ rk[4 * c.val + r.val] := by
  rw [← ofColumns_getElem fun c => mixColumn (subColumn s c)]
  exact addRoundKey_getElem rk _ ⟨4 * c.val + r.val, by omega⟩

/-- Byte r of column c after round 10. -/
theorem finalRound_getElem (rk s : Block) (c r : Fin 4) :
    (finalRound rk s)[4 * c.val + r.val] = sbox s[srcIndex r c] ^^^ rk[4 * c.val + r.val] := by
  rw [← subColumn_getElem, ← ofColumns_getElem (subColumn s)]
  exact addRoundKey_getElem rk _ ⟨4 * c.val + r.val, by omega⟩

/-- A round 1..9 is injective, as each of its four parts is. -/
theorem fullRound_injective (rk : Block) : Function.Injective (fullRound rk) := fun s t h => by
  have hmixed : (fun c => mixColumn (subColumn s c)) = fun c => mixColumn (subColumn t c) :=
    ofColumns_injective (addRoundKey_injective rk h)
  exact subColumn_injective (funext fun c => mixColumn_injective (congrFun hmixed c))

/-- Round 10 is injective, as each of its three parts is. -/
theorem finalRound_injective (rk : Block) : Function.Injective (finalRound rk) :=
  (addRoundKey_injective rk).comp (ofColumns_injective.comp subColumn_injective)

/-- The State after round 1 of the known-answer test. -/
theorem fullRound_example :
    fullRound
        (roundKey (keyExpansion #v[0x00#8, 0x01#8, 0x02#8, 0x03#8, 0x04#8, 0x05#8, 0x06#8, 0x07#8,
          0x08#8, 0x09#8, 0x0a#8, 0x0b#8, 0x0c#8, 0x0d#8, 0x0e#8, 0x0f#8]) 1)
        #v[0x00#8, 0x10#8, 0x20#8, 0x30#8, 0x40#8, 0x50#8, 0x60#8, 0x70#8,
          0x80#8, 0x90#8, 0xa0#8, 0xb0#8, 0xc0#8, 0xd0#8, 0xe0#8, 0xf0#8] =
      #v[0x89#8, 0xd8#8, 0x10#8, 0xe8#8, 0x85#8, 0x5a#8, 0xce#8, 0x68#8,
        0x2d#8, 0x18#8, 0x43#8, 0xd8#8, 0xcb#8, 0x12#8, 0x8f#8, 0xe4#8] := by
  decide +kernel

/-- The State after round 10 of the known-answer test. -/
theorem finalRound_example :
    finalRound
        (roundKey (keyExpansion #v[0x00#8, 0x01#8, 0x02#8, 0x03#8, 0x04#8, 0x05#8, 0x06#8, 0x07#8,
          0x08#8, 0x09#8, 0x0a#8, 0x0b#8, 0x0c#8, 0x0d#8, 0x0e#8, 0x0f#8]) 10)
        #v[0xbd#8, 0x6e#8, 0x7c#8, 0x3d#8, 0xf2#8, 0xb5#8, 0x77#8, 0x9e#8,
          0x0b#8, 0x61#8, 0x21#8, 0x6e#8, 0x8b#8, 0x10#8, 0xb6#8, 0x89#8] =
      #v[0x69#8, 0xc4#8, 0xe0#8, 0xd8#8, 0x6a#8, 0x7b#8, 0x04#8, 0x30#8,
        0xd8#8, 0xcd#8, 0xb7#8, 0x80#8, 0x70#8, 0xb4#8, 0xc5#8, 0x5a#8] := by
  decide +kernel

/-- A round 1..9 on the registers puts its function form into Scratch and State and changes nothing else. -/
theorem roundPass_eq (n : Fin 11) (s : State) :
    roundPass n s = { s with scr := fullRound (roundKey s.w n) s.st, st := fullRound (roundKey s.w n) s.st } := by
  simp only [roundPass, State.setScr, State.setSt]

/-- Round 10 on the registers puts its function form into Scratch and State and changes nothing else. -/
theorem finalPass_eq (s : State) :
    finalPass s = { s with scr := finalRound (roundKey s.w 10) s.st, st := finalRound (roundKey s.w 10) s.st } := by
  simp only [finalPass, State.setScr, State.setSt]

/-- Settles O11: Scratch takes the round's function form, which is known byte by byte, and is copied to State; the two
examples are computed. -/
theorem roundsGoThroughScratch : Obligations.RoundsGoThroughScratch := by
  refine ⟨fun s => ⟨fun n _ _ => ⟨_, roundPass_eq n s, ?_⟩, _, finalPass_eq s, ?_⟩, ?_⟩
  · exact fullRound_getElem (roundKey s.w n) s.st
  · exact finalRound_getElem (roundKey s.w 10) s.st
  · rintro _ rfl
    exact ⟨fullRound_example, finalRound_example⟩

/-! ## The cipher -/

/-- Rounds 1..n are injective, one after the other. -/
theorem fullRounds_injective (w : KeyWords) (n : Nat) : Function.Injective (fullRounds w n) := by
  induction n with
  | zero => exact Function.injective_id
  | succ n ih => exact (fullRound_injective (roundKey w (Fin.ofNat 11 (n + 1)))).comp ih

/-- For fixed round keys the cipher is injective: round 0, rounds 1..9 and round 10 are. -/
theorem cipher_injective (w : KeyWords) : Function.Injective fun b => cipher b w :=
  (finalRound_injective (roundKey w 10)).comp
    ((fullRounds_injective w 9).comp (addRoundKey_injective (roundKey w 0)))

/-- An injection of the finitely many blocks into themselves is a bijection. -/
theorem cipher_bijective (w : KeyWords) : Function.Bijective fun b => cipher b w :=
  have := Block.finite
  Finite.injective_iff_bijective.mp (cipher_injective w)

/-- The known-answer test of the source. -/
theorem cipher_known_answer :
    cipher
        #v[0x00#8, 0x11#8, 0x22#8, 0x33#8, 0x44#8, 0x55#8, 0x66#8, 0x77#8,
           0x88#8, 0x99#8, 0xaa#8, 0xbb#8, 0xcc#8, 0xdd#8, 0xee#8, 0xff#8]
        (keyExpansion
          #v[0x00#8, 0x01#8, 0x02#8, 0x03#8, 0x04#8, 0x05#8, 0x06#8, 0x07#8,
             0x08#8, 0x09#8, 0x0a#8, 0x0b#8, 0x0c#8, 0x0d#8, 0x0e#8, 0x0f#8]) =
      #v[0x69#8, 0xc4#8, 0xe0#8, 0xd8#8, 0x6a#8, 0x7b#8, 0x04#8, 0x30#8,
         0xd8#8, 0xcd#8, 0xb7#8, 0x80#8, 0x70#8, 0xb4#8, 0xc5#8, 0x5a#8] := by
  decide +kernel

/-- Settles O12: the rounds are those of the definition in order, each is injective, and blocks are finitely many. -/
theorem cipherIsAPermutation : Obligations.CipherIsAPermutation :=
  ⟨fun _ _ => rfl, cipher_bijective, cipher_known_answer⟩

end Sys2Proof.Machine
end

section
/-! Advance and TakeChunk (43_commands.md R160, R161): the block they leave, and the chunk handed out of it. -/

namespace Sys2Proof.Machine

/-! ## Advance -/

/-- `Advance` as one record: the current block, or its cipher from place 0 when it is used up. -/
theorem advance_eq (s : State) :
    ∃ b, advance s = { s with
      st := if s.pos.val = 16 then cipher s.st s.w else s.st
      scr := b
      pos := if s.pos.val = 16 then 0 else s.pos } := by
  rcases advance_cases s with ⟨h, e⟩ | ⟨h, e⟩
  · exact ⟨s.scr, by simp [e, Nat.ne_of_lt h]⟩
  · exact ⟨cipher s.st s.w, by simp [e, h, State.setSt, State.setScr, State.setPos]⟩

/-- Settles O14: the two cases of `Advance`, where POS >= 16 is POS = 16. -/
theorem advanceStepsTheBlock : Obligations.AdvanceStepsTheBlock := fun s =>
  ⟨advance_of_lt, fun h => ⟨_, advance_of_eq (by have := s.pos.isLt; omega)⟩⟩

/-! ## TakeChunk -/

/-- `TakeChunk` as one triple, its POS written as a remainder. -/
theorem takeChunk_eq (n : Nat) (s : State) :
    takeChunk n s =
      ((advance s).pos.val, min (16 - (advance s).pos.val) n,
        { advance s with pos := Fin.ofNat 17 ((advance s).pos.val + min (16 - (advance s).pos.val) n) }) := by
  have hlt := advance_pos_lt s
  have hpos : ∀ h : (advance s).pos.val + min (16 - (advance s).pos.val) n < 17,
      (⟨_, h⟩ : Fin 17) = Fin.ofNat 17 ((advance s).pos.val + min (16 - (advance s).pos.val) n) :=
    fun h => Fin.ext (Nat.mod_eq_of_lt h).symm
  simp only [takeChunk, chunkLen, State.setPos, hpos]

/-- Setting POS to its own value changes nothing. -/
theorem State.pos_ofNat_self (s : State) : { s with pos := Fin.ofNat 17 s.pos.val } = s := by
  have hpos : Fin.ofNat 17 s.pos.val = s.pos := Fin.ext (Nat.mod_eq_of_lt s.pos.isLt)
  rw [hpos]

/-- Settles O15: everything follows from the triple of `takeChunk_eq` and the two cases of `Advance`. -/
theorem takeChunkHandsOutTheRest : Obligations.TakeChunkHandsOutTheRest := by
  intro n s off len t e
  have hlt := advance_pos_lt s
  obtain ⟨rfl, rfl, rfl⟩ : _ = off ∧ _ = len ∧ _ = t := by
    simpa only [takeChunk_eq, Prod.mk.injEq] using e
  have hpos : (Fin.ofNat 17 ((advance s).pos.val + min (16 - (advance s).pos.val) n)).val =
      (advance s).pos.val + min (16 - (advance s).pos.val) n := Nat.mod_eq_of_lt (by omega)
  refine ⟨rfl, by omega, rfl, rfl, hpos, fun m hm => chunkBytes_getElem? _ hm, ?_, ?_, ?_, fun hn => ?_, ?_⟩
  · rw [chunkBytes_length]; omega
  · rintro h rfl
    rw [Nat.min_zero, Nat.add_zero, State.pos_ofNat_self, advance_of_lt h]
  · rintro h rfl
    simp [advance_of_eq h]
  · rw [hpos]; omega
  · rintro h rfl
    rw [hpos, advance_of_lt (by omega), h]
    decide

end Sys2Proof.Machine
end

section
/-! The four commands (43_commands.md R162 to R165): the step on a command's words, and what each command does. -/

namespace Sys2Proof.Machine

/-! ## The step on the words of a command -/

/-- A step on the whole words of a command with a legal OP is HALTED, RESERVED_BITS, or the command's own meaning. -/
theorem step_eq_commandStep {s : State} {h : Word32} {p rest : List Word32} {op : BitVec 4} {i : Instr}
    (hr : s.rst = none) (hc : s.cmd = h :: p ++ rest) (ho : opcode h = op) (hl : legalOpcode op = true)
    (hp : p.length = payloadWords op) (hd : decodePayload op p = .ok i) : step s = commandStep s h i rest := by
  subst ho
  rw [step_whole hr hc hp, runCommand, State.setCmd_flt, commandStep]
  by_cases hf : s.flt = true
  · rw [if_pos hf, if_pos hf, respondHalted_eq]
    rfl
  · rw [if_neg hf, if_neg hf]
    rcases decodeCommand_cases hp with ⟨hl', -⟩ | ⟨-, hres, e⟩ | ⟨-, hres, e, -⟩
    · cases hl.symm.trans hl'
    · rw [e, if_pos (show h.extractLsb' 4 28 ≠ 0#28 from hres)]
      exact congrArg _ (raiseFault_eq .reservedBits _)
    · rw [e, hd, if_neg (not_not.mpr (show h.extractLsb' 4 28 = 0#28 from hres))]
      rfl

/-! ## SET_KEY and SET_IV -/

/-- Settles O16: the meaning is the record written out, and the step is the rule for whole commands. -/
theorem setKeyLoadsTheSchedule : Obligations.SetKeyLoadsTheSchedule :=
  ⟨exec_setKey, fun _ _ w0 w1 w2 w3 _ hr hc ho =>
    step_eq_commandStep (p := [w0, w1, w2, w3]) hr hc ho rfl rfl rfl⟩

/-- Settles O17: the meaning is the record written out, and the step is the rule for whole commands. -/
theorem setIvSeedsTheState : Obligations.SetIvSeedsTheState :=
  ⟨exec_setIv, fun _ _ w0 w1 w2 w3 _ hr hc ho =>
    step_eq_commandStep (p := [w0, w1, w2, w3]) hr hc ho rfl rfl rfl⟩

/-! ## The checks of keystream use -/

theorem contextFault_of_noKey {s : State} (hk : s.kv = false) : contextFault s = some .keyNotSet := by
  simp [contextFault, hk]

theorem contextFault_of_noIv {s : State} (hk : s.kv = true) (hs : s.sv = false) :
    contextFault s = some .ivNotSet := by
  simp [contextFault, hk, hs]

/-- An APPLY of at least one byte makes the checks of keystream use first. -/
theorem applyFault_of_contextFault {addr len : Word32} {s : State} {c : FaultCause} (hl : len ≠ 0#32)
    (hc : contextFault s = some c) : applyFault addr len s = some c := by
  simp [applyFault, hl, hc]

/-- An APPLY that passes those checks and leaves BUF faults on its range. -/
theorem applyFault_of_outside {addr len : Word32} {s : State} (hl : len ≠ 0#32) (hc : contextFault s = none)
    (hout : s.bufSize < addr.toNat + len.toNat) : applyFault addr len s = some .bufferRange := by
  simp [applyFault, hl, hc, hout]

/-! ## NEXT_CHUNK -/

theorem exec_nextChunk_of_fault {n : Word32} {s : State} {c : FaultCause} (hc : contextFault s = some c) :
    exec (.nextChunk n) s = .next (s.afterFault c.code) := by
  rcases exec_nextChunk n s with ⟨c', hc', e⟩ | ⟨hn, -⟩
  · cases hc.symm.trans hc'
    exact e
  · cases hc.symm.trans hn

theorem exec_nextChunk_of_seeded {n : Word32} {s t : State} {off len : Nat} (hc : contextFault s = none)
    (ht : takeChunk n.toNat s = (off, len, t)) :
    exec (.nextChunk n) s = .next (t.respond (chunkResponse t.st off len)) := by
  rcases exec_nextChunk n s with ⟨c, hc', -⟩ | ⟨-, e⟩
  · cases hc.symm.trans hc'
  · rw [e, ht]

/-- The fields LEN and OFF of a chunk's header do not overlap, so the header is their sum. -/
theorem responseHeader_chunk {len off : Nat} (hlen : len ≤ 16) (hoff : off ≤ 15) :
    responseHeader .ok 0#4 (BitVec.ofNat 5 len) (BitVec.ofNat 4 off) =
      BitVec.ofNat 32 (len * 2 ^ 8 + off * 2 ^ 16) := by
  have hfields : len * 256 ||| off * 65536 = len * 256 + off * 65536 := by
    have hadd := Nat.two_pow_add_eq_or_of_lt (i := 16) (b := len * 256) (by omega) off
    rw [Nat.lor_comm, Nat.mul_comm off, ← hadd, Nat.add_comm]
  refine BitVec.eq_of_toNat_eq ?_
  simp (disch := omega) [responseHeader, Status.code, Nat.shiftLeft_eq, Nat.mod_eq_of_lt, hfields]

end Sys2Proof.Machine

namespace Sys2Proof

/-- Packed word j of a byte sequence holds its bytes 4j..4j+3, and 0 past its end (30_encoding.md R78). -/
theorem packBytes_eq_map (bytes : List Byte) :
    packBytes bytes = (List.range ((bytes.length + 3) / 4)).map fun j =>
      packWord (bytes.getD (4 * j) 0#8) (bytes.getD (4 * j + 1) 0#8) (bytes.getD (4 * j + 2) 0#8)
        (bytes.getD (4 * j + 3) 0#8) := by
  induction bytes using packBytes.induct with
  | case1 => rfl
  | case2 b0 => simp [packBytes]
  | case3 b0 b1 => simp [packBytes]
  | case4 b0 b1 b2 => simp [packBytes]
  | case5 b0 b1 b2 b3 rest ih =>
    have hlen : ((b0 :: b1 :: b2 :: b3 :: rest).length + 3) / 4 = (rest.length + 3) / 4 + 1 := by
      simp only [List.length_cons]; omega
    rw [packBytes, ih, hlen, List.range_succ_eq_map, List.map_cons, List.map_map]
    rfl

end Sys2Proof

namespace Sys2Proof.Machine

/-- Byte m of a chunk, and 0 past its end. -/
theorem chunkBytes_getD (st : Block) (off len m : Nat) :
    (chunkBytes st off len).getD m 0#8 = if m < len then st[off + m]?.getD 0#8 else 0#8 := by
  rw [List.getD_eq_getElem?_getD]
  split
  · rename_i hm
    rw [chunkBytes_getElem? st hm]
  · rename_i hm
    rw [List.getElem?_eq_none (by rw [chunkBytes_length]; omega)]
    rfl

/-- A byte that is ORed in only under a condition is the byte or 0, ORed in always. -/
theorem ite_or_setWidth_shiftLeft (c : Prop) [Decidable c] (v : Word32) (b : Byte) (k : Nat) :
    (if c then v ||| (b.setWidth 32 <<< k) else v) = v ||| ((if c then b else 0#8).setWidth 32 <<< k) := by
  split <;> simp

/-- The payload word that R164 builds in a loop is the packing of its four bytes. -/
theorem chunkWord_eq_packWord (st : Block) (off len j : Nat) :
    chunkWord st off len j =
      packWord ((chunkBytes st off len).getD (4 * j) 0#8) ((chunkBytes st off len).getD (4 * j + 1) 0#8)
        ((chunkBytes st off len).getD (4 * j + 2) 0#8) ((chunkBytes st off len).getD (4 * j + 3) 0#8) := by
  have hrange : List.range 4 = [0, 1, 2, 3] := rfl
  simp only [chunkBytes_getD]
  simp [chunkWord, hrange, ite_or_setWidth_shiftLeft, packWord, Nat.add_assoc]

/-- The response of a completed NEXT_CHUNK in the words of R164. -/
theorem chunkResponse_eq (st : Block) {off len : Nat} (hoff : off ≤ 15) (hlen : off + len ≤ 16) :
    chunkResponse st off len =
      BitVec.ofNat 32 (len * 2 ^ 8 + off * 2 ^ 16) :: (List.range ((len + 3) / 4)).map (chunkWord st off len) := by
  have hcount : (chunkBytes st off len).length = len := by rw [chunkBytes_length]; omega
  rw [chunkResponse, responseHeader_chunk (by omega) hoff, packBytes_eq_map, hcount]
  simp only [← chunkWord_eq_packWord]

/-- Settles O18: the faults are those of the context check, and the chunk is that of `takeChunk_eq` after `advance_eq`. -/
theorem nextChunkReturnsKeystream : Obligations.NextChunkReturnsKeystream := by
  intro n s
  refine ⟨fun hk => exec_nextChunk_of_fault (contextFault_of_noKey hk),
    fun hk hs => exec_nextChunk_of_fault (contextFault_of_noIv hk hs), fun hk hs block off len hb ho hl => ?_,
    fun h rest hr hc hop => step_eq_commandStep (p := [n]) hr hc hop rfl rfl rfl⟩
  obtain ⟨b, ha⟩ := advance_eq s
  have hoff : (advance s).pos.val = off := by rw [ha, ho]; dsimp only; split <;> rfl
  have hlt := advance_pos_lt s
  refine ⟨b, ?_⟩
  rw [exec_nextChunk_of_seeded (contextFault_eq_none.mpr ⟨hk, hs⟩) (takeChunk_eq n.toNat s), hoff, ← hl,
    chunkResponse_eq _ (by omega) (by omega), ha, hb]
  rfl

/-! ## APPLY -/

theorem exec_apply_of_fault {addr len : Word32} {s : State} {c : FaultCause} (hc : applyFault addr len s = some c) :
    exec (.apply addr len) s = .next (s.afterFault c.code) := by
  rcases exec_apply addr len s with ⟨c', hc', e⟩ | ⟨hn, -⟩
  · cases hc.symm.trans hc'
    exact e
  · cases hc.symm.trans hn

theorem exec_apply_of_noFault {addr len : Word32} {s : State} (hn : applyFault addr len s = none) :
    exec (.apply addr len) s = .next ((applyRange addr.toNat len.toNat s).respond [okHeader]) := by
  rcases exec_apply addr len s with ⟨c, hc, -⟩ | ⟨-, e⟩
  · cases hn.symm.trans hc
  · exact e

/-- An APPLY on a seeded core whose range is inside BUF completes, also one of no byte. -/
theorem exec_apply_of_inside {addr len : Word32} {s : State} (hk : s.kv = true) (hs : s.sv = true)
    (hin : addr.toNat + len.toNat ≤ s.bufSize) :
    exec (.apply addr len) s = .next ((applyRange addr.toNat len.toNat s).respond [okHeader]) := by
  refine exec_apply_of_noFault ?_
  by_cases hl : len = 0#32
  · rw [hl, applyFault_zero]
  · exact (applyFault_eq_none hl).mpr ⟨hk, hs, hin⟩

/-- The block of the last of `n` bytes from place `p` on, as the count of R170. -/
theorem lastBlock_eq_passes {p n : Nat} (hp : p ≤ 16) :
    (p + n) / 16 = if n + 1 ≤ 16 - p then 0 else (n + 1 - (16 - p) + 15) / 16 := by
  split <;> omega

/-- The place after the last of `n` bytes from place `p` on, as R170 gives it. -/
theorem endPlace_eq {p n : Nat} (hp : p ≤ 16) :
    (p + n) % 16 + 1 =
      if n + 1 ≤ 16 - p then p + (n + 1)
      else if (n + 1 - (16 - p)) % 16 = 0 then 16 else (n + 1 - (16 - p)) % 16 := by
  split
  · omega
  · split <;> omega

/-- The state after a range of at least one byte, its ST and POS by the count of R170. -/
theorem applyRange_state (a : Nat) {n : Nat} (hn : 0 < n) (s : State) :
    ∃ b, applyRange a n s = { s with
      st := nthBlock s.w (if n ≤ 16 - s.pos.val then 0 else (n - (16 - s.pos.val) + 15) / 16) s.st
      scr := b
      pos := Fin.ofNat 17
        (if n ≤ 16 - s.pos.val then s.pos.val + n
        else if (n - (16 - s.pos.val)) % 16 = 0 then 16 else (n - (16 - s.pos.val)) % 16)
      buf := (applyRange a n s).buf } := by
  obtain ⟨n, rfl⟩ : ∃ k, n = k + 1 := ⟨n - 1, by omega⟩
  have hp : s.pos.val ≤ 16 := by have := s.pos.isLt; omega
  obtain ⟨hst, hpos⟩ := applyRange_last a n s
  obtain ⟨st, scr, pos, buf, e⟩ := applyRange_frame a (n + 1) s
  rw [e] at hst hpos
  change st = _ at hst
  change pos.val = _ at hpos
  have hend : pos = Fin.ofNat 17 ((s.pos.val + n) % 16 + 1) :=
    Fin.ext (hpos.trans (Nat.mod_eq_of_lt (by omega)).symm)
  rw [← lastBlock_eq_passes hp, ← endPlace_eq hp, ← hst, ← hend, e]
  exact ⟨scr, rfl⟩

/-- Settles O19: at LEN = 0 there is no byte to do, the faults are those of `applyFault`, and the rest is what is known of
`applyRange`. -/
theorem applyXorsTheRange : Obligations.ApplyXorsTheRange := by
  intro addr len s
  refine ⟨?_, fun hl hk => exec_apply_of_fault (applyFault_of_contextFault hl (contextFault_of_noKey hk)),
    fun hl hk hs => exec_apply_of_fault (applyFault_of_contextFault hl (contextFault_of_noIv hk hs)),
    fun hl hk hs hout =>
      exec_apply_of_fault (applyFault_of_outside hl (contextFault_eq_none.mpr ⟨hk, hs⟩) hout),
    fun hl hk hs hin hm => ?_,
    fun h rest hr hc hop => step_eq_commandStep (p := [addr, len]) hr hc hop rfl rfl rfl⟩
  · rintro rfl
    exact exec_apply_of_noFault (applyFault_zero addr s)
  · have hn : 0 < len.toNat := by bv_omega
    obtain ⟨b, e⟩ := applyRange_state addr.toNat hn s
    refine ⟨b, (applyRange addr.toNat len.toNat s).buf, ?_, fun i hi => ?_, fun a ha => ?_⟩
    · rw [exec_apply_of_inside hk hs hin]
      exact congrArg (fun t => Host.Outcome.next (t.respond [okHeader])) e
    · rw [applyRange_read hm, if_pos (by omega), Nat.add_sub_cancel_left]
    · rw [applyRange_read hm, if_neg (by omega)]

/-! ## APPLY twice (43_commands.md R169) -/

/-- `m'` is the canonical memory that holds `m` with the bytes of `[a, a + n)` XORed with `ks`. -/
structure Memory.IsXorOf (ks : Nat → Byte) (a n : Nat) (m m' : Memory) : Prop where
  wf : Memory.wf m' = true
  read : ∀ b, m'.read b = if a ≤ b ∧ b < a + n then m.read b ^^^ ks (b - a) else m.read b

/-- XORing the same bytes in twice restores a canonical memory. -/
theorem Memory.IsXorOf.restores {ks : Nat → Byte} {a n : Nat} {m m' m'' : Memory} (hm : Memory.wf m = true)
    (h : Memory.IsXorOf ks a n m m') (h' : Memory.IsXorOf ks a n m' m'') : m'' = m := by
  refine Memory.eq_of_read h'.wf hm fun b => ?_
  rw [h'.read, h.read]
  split
  · rw [BitVec.xor_assoc, BitVec.xor_self, BitVec.xor_zero]
  · rfl

/-- Right after a seed, the keystream ahead is the stream of that IV from its first byte on. -/
theorem keystreamByte_of_seeded {s : State} (hp : s.pos = 16) (j : Nat) :
    keystreamByte s j = streamByte s.w s.st j := by
  have h16 : s.pos.val = 16 := by rw [hp]; rfl
  exact keystreamByte_eq s (Nat.mod_lt j (by decide)) (by omega)

/-- An APPLY right after a seed XORs the stream into its range and keeps the key. -/
theorem exec_apply_isXorOf {addr len : Word32} {s : State} (hk : s.kv = true) (hs : s.sv = true) (hp : s.pos = 16)
    (hm : Memory.wf s.buf = true) (hin : addr.toNat + len.toNat ≤ s.bufSize) :
    ∃ t, exec (.apply addr len) s = .next t ∧
      Memory.IsXorOf (streamByte s.w s.st) addr.toNat len.toNat s.buf t.buf ∧
      t.w = s.w ∧ t.kv = true ∧ t.bufSize = s.bufSize := by
  have hread := applyRange_read hm addr.toNat len.toNat
  simp only [keystreamByte_of_seeded hp] at hread
  have hwf := applyRange_wf hm addr.toNat len.toNat
  refine ⟨_, exec_apply_of_inside hk hs hin, ⟨hwf, hread⟩, ?_⟩
  obtain ⟨st, scr, pos, buf, e⟩ := applyRange_frame addr.toNat len.toNat s
  simp [e, hk]

/-- SET_IV and APPLY on a core with a key XOR the stream of that IV into the range and keep the key. -/
theorem execAll_setIv_apply (iv : Block) {addr len : Word32} {s : State} (hk : s.kv = true)
    (hm : Memory.wf s.buf = true) (hin : addr.toNat + len.toNat ≤ s.bufSize) :
    ∃ t, execAll [.setIv iv, .apply addr len] s = some t ∧
      Memory.IsXorOf (streamByte s.w iv) addr.toNat len.toNat s.buf t.buf ∧
      t.w = s.w ∧ t.kv = true ∧ t.bufSize = s.bufSize := by
  obtain ⟨t, e, ht⟩ := exec_apply_isXorOf
    (s := { s with st := iv, sv := true, pos := 16, rsp := s.rsp ++ [0x00000000#32] }) hk rfl rfl hm hin
  exact ⟨t, by simp only [execAll, exec_setIv, e], ht⟩

/-- SET_KEY, SET_IV and APPLY XOR the stream of that key and IV into the range. -/
theorem execAll_setKey_setIv_apply (key iv : Block) {addr len : Word32} {s : State}
    (hm : Memory.wf s.buf = true) (hin : addr.toNat + len.toNat ≤ s.bufSize) :
    ∃ t, execAll [.setKey key, .setIv iv, .apply addr len] s = some t ∧
      Memory.IsXorOf (streamByte (keyExpansion key) iv) addr.toNat len.toNat s.buf t.buf ∧
      t.w = keyExpansion key ∧ t.kv = true ∧ t.bufSize = s.bufSize :=
  execAll_setIv_apply iv
    (s := { s with w := keyExpansion key, kv := true, pos := 16, rsp := s.rsp ++ [0x00000000#32] }) rfl hm hin

/-- Settles O26: each run XORs the same stream into the range, and twice is not at all. -/
theorem applyTwiceRestores : Obligations.ApplyTwiceRestores := by
  intro top x k k' key iv addr len hx hin
  obtain ⟨t, et, ht, hw, hk, hsize⟩ :=
    execAll_setKey_setIv_apply key iv (s := State.resetWith top x k) hx hin
  obtain ⟨u, eu, hu, -⟩ :=
    execAll_setKey_setIv_apply key iv (s := State.resetWith top t.buf k') ht.wf hin
  obtain ⟨v, ev, hv, -⟩ := execAll_setIv_apply iv hk ht.wf (by rw [hsize]; exact hin)
  rw [hw] at hv
  refine ⟨t, u, v, et, fun i hi => ?_, eu, ht.restores hx hu, ev, ht.restores hx hv⟩
  rw [ht.read, if_pos (by omega), Nat.add_sub_cancel_left]
  rfl

end Sys2Proof.Machine
end

section
/-! Faults and halting (60_exceptions.md R200 to R211): what a step answers to a whole command when a check
fails, and what a command that passes its checks keeps. -/

namespace Sys2Proof

/-- The reserved opcodes as numbers: 0 and 5..15. -/
theorem legalOpcode_eq_false_iff : ∀ op : BitVec 4, legalOpcode op = false ↔ op.toNat = 0 ∨ 5 ≤ op.toNat := by decide

theorem legalOpcode_of_not_reserved {op : BitVec 4} (h : ¬ (op.toNat = 0 ∨ 5 ≤ op.toNat)) : legalOpcode op = true :=
  Bool.eq_true_of_not_eq_false fun hl => h ((legalOpcode_eq_false_iff op).mp hl)

theorem payloadWords_of_illegal : ∀ op : BitVec 4, legalOpcode op = false → payloadWords op = 0 := by decide

/-- The four whole commands of a legal opcode, with the payload a check looks at. -/
theorem decodePayload_cases {op : BitVec 4} {p : List Word32} (hl : legalOpcode op = true)
    (hp : p.length = payloadWords op) :
    (op = 1#4 ∧ ∃ key, decodePayload op p = .ok (.setKey key)) ∨
      (op = 2#4 ∧ ∃ iv, decodePayload op p = .ok (.setIv iv)) ∨
      (op = 3#4 ∧ ∃ n, p = [n] ∧ decodePayload op p = .ok (.nextChunk n)) ∨
      (op = 4#4 ∧ ∃ addr len, p = [addr, len] ∧ decodePayload op p = .ok (.apply addr len)) := by
  rcases (legalOpcode_iff op).1 hl with rfl | rfl | rfl | rfl <;> simp only [payloadWords] at hp
  · match p, hp with
    | [_, _, _, _], _ => exact .inl ⟨rfl, _, rfl⟩
  · match p, hp with
    | [_, _, _, _], _ => exact .inr (.inl ⟨rfl, _, rfl⟩)
  · match p, hp with
    | [n], _ => exact .inr (.inr (.inl ⟨rfl, n, rfl, rfl⟩))
  · match p, hp with
    | [addr, len], _ => exact .inr (.inr (.inr ⟨rfl, addr, len, rfl, rfl⟩))

end Sys2Proof

namespace Sys2Proof.Machine

/-! ## The faults of a command's own meaning -/

/-- The fault the meaning of a command raises, if any (60_exceptions.md R204 to R206). -/
def commandFault : Instr → State → Option FaultCause
  | .setKey _, _ => none
  | .setIv _, _ => none
  | .nextChunk _, s => contextFault s
  | .apply addr len, s => applyFault addr len s

theorem exec_of_commandFault {i : Instr} {s : State} {c : FaultCause} (hc : commandFault i s = some c) :
    exec i s = .next (s.afterFault c.code) := by
  cases i with
  | setKey key => cases hc
  | setIv iv => cases hc
  | nextChunk n => exact exec_nextChunk_of_fault hc
  | apply addr len => exact exec_apply_of_fault hc

/-- A command that passes its checks completes, latches no fault and takes no word more. -/
theorem exec_of_no_commandFault {i : Instr} {s : State} (hn : commandFault i s = none) :
    ∃ t, exec i s = .next t ∧ t.flt = s.flt ∧ t.cause = s.cause ∧ t.cmd = s.cmd := by
  cases i with
  | setKey key => exact ⟨_, rfl, rfl, rfl, rfl⟩
  | setIv iv => exact ⟨_, rfl, rfl, rfl, rfl⟩
  | nextChunk n =>
    refine ⟨_, exec_nextChunk_of_seeded hn rfl, ?_⟩
    obtain ⟨st, scr, pos, ha⟩ := advance_frame s
    simp [ha]
  | apply addr len =>
    refine ⟨_, exec_apply_of_noFault hn, ?_⟩
    obtain ⟨st, scr, pos, buf, hs⟩ := applyRange_frame addr.toNat len.toNat s
    simp [hs]

/-- A command that sets FLT took a fault of its own and did nothing else. -/
theorem eq_afterFault_of_exec_flt {i : Instr} {s t : State} (hf : s.flt = false) (e : exec i s = .next t)
    (ht : t.flt = true) : ∃ c : FaultCause, t = s.afterFault c.code := by
  cases hc : commandFault i s with
  | some c =>
    cases (exec_of_commandFault hc).symm.trans e
    exact ⟨c, rfl⟩
  | none =>
    obtain ⟨u, hu, hflt, -⟩ := exec_of_no_commandFault hc
    cases hu.symm.trans e
    cases (hflt.trans hf).symm.trans ht

/-- The checks of NEXT_CHUNK in order. -/
theorem exec_nextChunk_checks (n : Word32) (s : State) :
    if s.kv = false then exec (.nextChunk n) s = .next (s.afterFault 3#4)
    else if s.sv = false then exec (.nextChunk n) s = .next (s.afterFault 4#4)
    else ∃ t, exec (.nextChunk n) s = .next t ∧ t.flt = s.flt ∧ t.cause = s.cause ∧ t.cmd = s.cmd := by
  split_ifs with hk hs
  · exact exec_nextChunk_of_fault (contextFault_of_noKey hk)
  · exact exec_nextChunk_of_fault (contextFault_of_noIv (by simpa using hk) hs)
  · exact exec_of_no_commandFault (contextFault_eq_none.mpr ⟨by simpa using hk, by simpa using hs⟩)

/-- The checks of APPLY in order. -/
theorem exec_apply_checks (addr len : Word32) (s : State) :
    if len = 0#32 then exec (.apply addr len) s = .next { s with rsp := s.rsp ++ [0x00000000#32] }
    else if s.kv = false then exec (.apply addr len) s = .next (s.afterFault 3#4)
    else if s.sv = false then exec (.apply addr len) s = .next (s.afterFault 4#4)
    else if s.bufSize < addr.toNat + len.toNat then exec (.apply addr len) s = .next (s.afterFault 5#4)
    else ∃ t, exec (.apply addr len) s = .next t ∧ t.flt = s.flt ∧ t.cause = s.cause ∧ t.cmd = s.cmd := by
  split_ifs with hl hk hs hout
  · rw [hl]
    exact exec_apply_of_noFault (applyFault_zero addr s)
  · exact exec_apply_of_fault (applyFault_of_contextFault hl (contextFault_of_noKey hk))
  · exact exec_apply_of_fault (applyFault_of_contextFault hl (contextFault_of_noIv (by simpa using hk) hs))
  · exact exec_apply_of_fault (applyFault_of_outside hl
      (contextFault_eq_none.mpr ⟨by simpa using hk, by simpa using hs⟩) hout)
  · exact exec_of_no_commandFault ((applyFault_eq_none hl).mpr
      ⟨by simpa using hk, by simpa using hs, not_lt.mp hout⟩)

/-! ## The step on a whole command -/

section
variable {s : State} {h : Word32} {p rest : List Word32} (hr : s.rst = none) (hc : s.cmd = h :: p ++ rest)
  (hp : p.length = payloadWords (opcode h))
include hr hc hp

theorem step_of_flt (hf : s.flt = true) : step s = .next { s with cmd := rest }.afterHalted := by
  rw [step_whole hr hc hp, runCommand, State.setCmd_flt, if_pos hf, respondHalted_eq]
  rfl

theorem step_of_illegalOpcode (hf : s.flt = false) (hl : legalOpcode (opcode h) = false) :
    step s = .next ({ s with cmd := rest }.afterFault 1#4) := by
  have hd : decodeCommand h p = .error .illegalOpcode := by simp [decodeCommand, hl]
  simp only [step_whole hr hc hp, runCommand, State.setCmd_flt, hf, hd, rejectCommand, raiseFault_eq]
  rfl

theorem step_of_reservedBits (hf : s.flt = false) (hl : legalOpcode (opcode h) = true)
    (hres : h.extractLsb' 4 28 ≠ 0#28) : step s = .next ({ s with cmd := rest }.afterFault 2#4) := by
  obtain ⟨i, hd⟩ := decodePayload_ok hl hp
  rw [step_eq_commandStep hr hc rfl hl hp hd, commandStep, if_neg (by simp [hf]), if_pos hres]

/-- A command that no check of its header stops is executed. -/
theorem step_of_decodePayload {i : Instr} (hf : s.flt = false) (hl : legalOpcode (opcode h) = true)
    (hres : h.extractLsb' 4 28 = 0#28) (hd : decodePayload (opcode h) p = .ok i) :
    step s = exec i { s with cmd := rest } := by
  rw [step_eq_commandStep hr hc rfl hl hp hd, commandStep, if_neg (by simp [hf]), if_neg (by simp [hres])]

end

/-! ## The statements -/

/-- Settles O31: with both flags set, the range check is the one that fails. -/
theorem applyOutsideBufFaults : Obligations.ApplyOutsideBufFaults := fun _ _ _ hk hs hl hout =>
  ⟨exec_apply_of_fault (applyFault_of_outside hl (contextFault_eq_none.mpr ⟨hk, hs⟩) hout), rfl⟩

/-- Settles O32: the latched fault is looked at before the header. -/
theorem haltedCoreAnswersHalted : Obligations.HaltedCoreAnswersHalted := fun _ _ _ _ hr hf hc hp =>
  step_of_flt hr hc hp hf

/-- Settles O33: of the cases of a step, only the HALTED answer has FLT set and no reset pending. -/
theorem firstFaultIsKept : Obligations.FirstFaultIsKept := by
  intro s t hr hf e
  rcases step_cases e with ⟨m, hm, -⟩ | ⟨-, h, p, rest, -, ⟨-, rfl⟩ | ⟨hf', -⟩ | ⟨hf', -⟩ | ⟨hf', -⟩⟩
  · cases hr.symm.trans hm
  · exact ⟨hf, rfl, rfl⟩
  all_goals cases hf.symm.trans hf'

/-- Settles O30: a reserved OP has no payload, and the bits are looked at once the OP is legal. -/
theorem reservedHeadersFault : Obligations.ReservedHeadersFault := by
  intro s h hr hf
  refine ⟨fun rest hc hop => ?_, fun p rest hc hp h1 h4 hres => ?_⟩
  · have hl : legalOpcode (opcode h) = false := (legalOpcode_eq_false_iff _).mpr (hop.imp_left (congrArg BitVec.toNat))
    exact step_of_illegalOpcode (p := []) hr hc (payloadWords_of_illegal _ hl).symm hf hl
  · have hop : ¬ ((opcode h).toNat = 0 ∨ 5 ≤ (opcode h).toNat) := by
      rw [opcode]
      omega
    exact step_of_reservedBits hr hc hp hf (legalOpcode_of_not_reserved hop) hres

/-- Settles O29: a step that sets FLT rejects a header or executes a command that took its own fault. -/
theorem faultsArePrecise : Obligations.FaultsArePrecise := by
  refine ⟨raiseFault_eq, rfl, rfl, rfl, rfl, rfl, fun s t hr hf e ht => ?_⟩
  rcases step_cases e with ⟨m, hm, -⟩ | ⟨-, h, p, rest, htake, hcase⟩
  · cases hr.symm.trans hm
  obtain ⟨hc, hp⟩ := eq_of_takeCommand htake
  have hfault : ∃ c : FaultCause, t = (s.setCmd rest).afterFault c.code := by
    rcases hcase with ⟨hf', -⟩ | ⟨-, -, ht⟩ | ⟨-, -, ht⟩ | ⟨-, i, -, hx⟩
    · cases hf.symm.trans hf'
    · exact ⟨.illegalOpcode, ht⟩
    · exact ⟨.reservedBits, ht⟩
    · exact eq_afterFault_of_exec_flt hf hx ht
  obtain ⟨c, rfl⟩ := hfault
  exact ⟨c, h, p, rest, hc, hp, rfl⟩

/-- Settles O22: the checks of the header come first; those left are the ones the meaning of the command makes. -/
theorem checksAreMadeInOrder : Obligations.ChecksAreMadeInOrder := by
  intro s h p rest hr hc hp op u
  by_cases hf : s.flt = true
  · rw [if_pos hf]
    exact step_of_flt hr hc hp hf
  rw [if_neg hf]
  replace hf : s.flt = false := by simpa using hf
  by_cases hop : op = 0 ∨ 5 ≤ op
  · rw [if_pos hop]
    exact step_of_illegalOpcode hr hc hp hf ((legalOpcode_eq_false_iff _).mpr hop)
  rw [if_neg hop]
  have hl := legalOpcode_of_not_reserved hop
  by_cases hres : h.extractLsb' 4 28 ≠ 0#28
  · rw [if_pos hres]
    exact step_of_reservedBits hr hc hp hf hl hres
  rw [if_neg hres]
  have hu : u = s.setCmd rest := rfl
  have hstep {i : Instr} : decodePayload (opcode h) p = .ok i → step s = exec i u :=
    step_of_decodePayload hr hc hp hf hl (not_not.mp hres)
  rcases decodePayload_cases hl hp with ⟨ho, key, hd⟩ | ⟨ho, iv, hd⟩ | ⟨ho, n, rfl, hd⟩ | ⟨ho, addr, len, rfl, hd⟩
  all_goals replace ho : op = _ := congrArg BitVec.toNat ho
  · simpa [ho, hu, hstep hd, hf] using exec_of_no_commandFault (i := .setKey key) (s := s.setCmd rest) rfl
  · simpa [ho, hu, hstep hd, hf] using exec_of_no_commandFault (i := .setIv iv) (s := s.setCmd rest) rfl
  · simpa [ho, hu, hstep hd, hf] using exec_nextChunk_checks n (s.setCmd rest)
  · simpa [ho, hu, hstep hd, hf] using exec_apply_checks addr len (s.setCmd rest)

end Sys2Proof.Machine
end

section
/-! Reset and rekeying (70_reset_and_hazards.md R221, R230): what clears the flags, and the block a new key makes of the
State it finds. -/

namespace Sys2Proof.Machine

/-! ## A whole block as one chunk -/

/-- The chunk that is a whole block, byte by byte. -/
theorem chunkBytes_whole_getD (st : Block) {m : Nat} (hm : m < 16) : (chunkBytes st 0 16).getD m 0#8 = st[m] := by
  rw [chunkBytes_getD, if_pos hm, Nat.zero_add, Vector.getElem?_eq_getElem hm, Option.getD_some]

/-- Payload word j of a chunk that is a whole block is word j of the block. -/
theorem chunkWord_whole (st : Block) (j : Fin 4) : chunkWord st 0 16 j.val = blockWord st j := by
  simp (disch := omega) only [chunkWord_eq_packWord, blockWord, chunkBytes_whole_getD]

/-- The response that hands out a whole block: a header with LEN = 16 and OFF = 0, and the block's four words. -/
theorem chunkResponse_whole (st : Block) : chunkResponse st 0 16 = 0x00001000#32 :: packBlock st := by
  rw [chunkResponse_eq st (by omega) (by omega), packBlock, ← chunkWord_whole st 0, ← chunkWord_whole st 1,
    ← chunkWord_whole st 2, ← chunkWord_whole st 3]
  rfl

/-- NEXT_CHUNK 16 on a used-up block hands out the whole next block. -/
theorem exec_nextChunk_whole {s : State} (hk : s.kv = true) (hs : s.sv = true) (hp : s.pos = 16) :
    exec (.nextChunk 16#32) s =
      .next ((((s.setSt (cipher s.st s.w)).setScr (cipher s.st s.w)).setPos 16).respond
        (0x00001000#32 :: packBlock (cipher s.st s.w))) := by
  have ht : takeChunk (16#32).toNat s = (0, 16, ((s.setSt (cipher s.st s.w)).setScr (cipher s.st s.w)).setPos 16) := by
    rw [takeChunk_eq, advance_of_eq (congrArg Fin.val hp)]
    rfl
  rw [exec_nextChunk_of_seeded (contextFault_eq_none.mpr ⟨hk, hs⟩) ht, State.setPos_st, State.setScr_st,
    State.setSt_st, chunkResponse_whole]

/-- Settles O27: SET_KEY leaves the block used up and ST alone, so the next chunk is the next block under the new key. -/
theorem rekeyContinuesFromState : Obligations.RekeyContinuesFromState := fun s key hs =>
  ⟨_, _, exec_setKey key s, rfl, rfl, exec_nextChunk_whole rfl hs rfl, rfl, rfl⟩

/-! ## Who clears the flags -/

/-- No command clears KV or SV (10_state.md R29). -/
theorem exec_keeps_kv_sv {i : Instr} {s t : State} (e : exec i s = .next t) :
    (s.kv = true → t.kv = true) ∧ (s.sv = true → t.sv = true) := by
  cases i with
  | setKey key => cases e; exact ⟨fun _ => rfl, id⟩
  | setIv iv => cases e; exact ⟨id, fun _ => rfl⟩
  | nextChunk n =>
    rcases exec_nextChunk n s with ⟨c, -, h⟩ | ⟨-, h⟩ <;> cases h.symm.trans e
    · exact ⟨id, id⟩
    · obtain ⟨st, scr, pos, ha⟩ := advance_frame s
      simp [takeChunk_eq, ha]
  | apply addr len =>
    rcases exec_apply addr len s with ⟨c, -, h⟩ | ⟨-, h⟩ <;> cases h.symm.trans e
    · exact ⟨id, id⟩
    · obtain ⟨st, scr, pos, buf, ha⟩ := applyRange_frame addr.toNat len.toNat s
      simp [ha]

/-- A step with no reset pending clears neither KV nor SV: what it does short of executing a command touches neither. -/
theorem step_keeps_kv_sv {s t : State} (hr : s.rst = none) (e : step s = .next t) :
    (s.kv = true → t.kv = true) ∧ (s.sv = true → t.sv = true) := by
  rcases step_cases e with ⟨m, hm, -⟩ | ⟨-, h, p, rest, -, ⟨-, rfl⟩ | ⟨-, -, rfl⟩ | ⟨-, -, rfl⟩ | ⟨-, i, -, hx⟩⟩
  · cases hr.symm.trans hm
  · exact ⟨id, id⟩
  · exact ⟨id, id⟩
  · exact ⟨id, id⟩
  · exact exec_keeps_kv_sv (s := s.setCmd rest) hx

/-- A pending reset is what the step takes. -/
theorem eq_takeReset_of_step {s t : State} (hr : s.rst ≠ none) (e : step s = .next t) : ∃ m, t = takeReset m s := by
  rcases step_cases e with ⟨m, -, ht⟩ | ⟨hn, -⟩
  · exact ⟨m, ht⟩
  · exact absurd hn hr

/-- Settles O34: commands keep KV and SV, a latched fault keeps FLT and CAUSE (R211), and a reset gives all four their
reset values. -/
theorem onlyResetClearsFlags : Obligations.OnlyResetClearsFlags := by
  intro s t e
  refine ⟨fun hr => ?_, fun hr => ?_⟩
  · obtain ⟨hkv, hsv⟩ := step_keeps_kv_sv hr e
    refine ⟨hkv, hsv, fun hf => ?_⟩
    obtain ⟨hflt, hcause, -⟩ := firstFaultIsKept s t hr hf e
    exact ⟨hflt, hcause⟩
  · obtain ⟨m, rfl⟩ := eq_takeReset_of_step hr e
    exact ⟨rfl, rfl, rfl, rfl⟩

end Sys2Proof.Machine
end

section
/-! The encoding of commands and responses (30_encoding.md): framing takes whole commands, decoding and encoding are
inverse to each other, and the fields and the payload of a response lie where the rules put them. -/

namespace Sys2Proof

/-! ## Framing -/

/-- Settles O47: a command taken was the first words of the channel, and whole first words are taken. -/
theorem framingTakesWholeCommands : Obligations.FramingTakesWholeCommands := by
  intro ws p rest h
  refine ⟨eq_of_takeCommand, ?_⟩
  rintro ⟨rfl, hp⟩
  exact takeCommand_append rest hp

/-- What waits on the channel while no command is taken: nothing, or a header with too few words behind it. -/
theorem takeCommand_eq_none {ws : List Word32} (e : takeCommand ws = none) :
    ws = [] ∨ ∃ h p, ws = h :: p ∧ p.length < payloadWords (opcode h) := by
  cases ws with
  | nil => exact .inl rfl
  | cons h p =>
    refine .inr ⟨h, p, rfl, ?_⟩
    by_contra hlen
    simp [takeCommand, not_lt.mp hlen] at e

/-- Words that decode have a command to take, and it decodes to the same. -/
theorem takeCommand_of_decode {ws rest : List Word32} {i : Instr} (e : decode ws = .ok (i, rest)) :
    ∃ h p, takeCommand ws = some (h, p, rest) ∧ decodeCommand h p = .ok i := by
  rcases hc : takeCommand ws with - | ⟨h, p, rest'⟩
  · simp only [decode, hc] at e
    cases e
  · rw [decode_of_takeCommand hc] at e
    cases hd : decodeCommand h p with
    | error x =>
      rw [hd] at e
      cases e
    | ok j =>
      rw [hd] at e
      cases e
      exact ⟨h, p, rfl, hd⟩

/-! ## Decoding the words of a command -/

/-- Unpacking the payload words of a block gives that block. -/
theorem unpackBlock_blockWord (b : Block) :
    unpackBlock (blockWord b 0) (blockWord b 1) (blockWord b 2) (blockWord b 3) = b := by
  have hword : ∀ j : Fin 4, (#v[blockWord b 0, blockWord b 1, blockWord b 2, blockWord b 3] : Vector Word32 4)[j] =
      blockWord b j := by
    intro j
    match j with
    | 0 | 1 | 2 | 3 => rfl
  refine Block.ext_getElem fun i => ?_
  have hi : 4 * (i.val / 4) + i.val % 4 = i.val := Nat.div_add_mod i.val 4
  have e := unpackBlock_getElem (blockWord b 0) (blockWord b 1) (blockWord b 2) (blockWord b 3)
    ⟨i.val / 4, by omega⟩ ⟨i.val % 4, by omega⟩
  rw [hword, wordByte_blockWord] at e
  simp only [hi] at e
  exact e

/-- The words of a command are a header and the payload its OP gives, and these decode to it. -/
theorem encode_eq_cons (i : Instr) :
    ∃ h p, encode i = h :: p ∧ p.length = payloadWords (opcode h) ∧ decodeCommand h p = .ok i := by
  cases i with
  | setKey key =>
    exact ⟨0x00000001#32, packBlock key, rfl, rfl,
      congrArg (fun b => Except.ok (Instr.setKey b)) (unpackBlock_blockWord key)⟩
  | setIv iv =>
    exact ⟨0x00000002#32, packBlock iv, rfl, rfl,
      congrArg (fun b => Except.ok (Instr.setIv b)) (unpackBlock_blockWord iv)⟩
  | nextChunk n => exact ⟨0x00000003#32, [n], rfl, rfl, rfl⟩
  | apply addr len => exact ⟨0x00000004#32, [addr, len], rfl, rfl, rfl⟩

/-- The words of a command decode to it, whatever words are behind them. -/
theorem decode_encode (i : Instr) (rest : List Word32) : decode (encode i ++ rest) = .ok (i, rest) := by
  obtain ⟨h, p, he, hp, hd⟩ := encode_eq_cons i
  rw [he, decode_append rest hp, hd]
  rfl

/-- Settles O44: every command is well-formed, and its header and payload decode to it (`encode_eq_cons`). -/
theorem decodeOfEncode : Obligations.DecodeOfEncode := fun i rest _ => decode_encode i rest

/-! ## Words that decode -/

/-- A header without reserved bits is its opcode. -/
theorem eq_setWidth_of_reservedField {h : Word32} (hres : reservedField h = 0#28) : h = (opcode h).setWidth 32 := by
  have hdiv : h.toNat / 2 ^ 4 = 0 := by
    have := congrArg BitVec.toNat hres
    simp only [reservedField, BitVec.extractLsb'_toNat, BitVec.toNat_ofNat, Nat.shiftRight_eq_div_pow] at this
    have := h.isLt
    omega
  refine BitVec.eq_of_toNat_eq ?_
  simp [opcode]
  omega

/-- The command a legal opcode's payload decodes to is encoded as that opcode and that payload. -/
theorem encode_of_decodePayload {op : BitVec 4} {p : List Word32} {i : Instr} (hl : legalOpcode op = true)
    (hp : p.length = payloadWords op) (e : decodePayload op p = .ok i) : encode i = op.setWidth 32 :: p := by
  rcases (legalOpcode_iff op).1 hl with rfl | rfl | rfl | rfl <;> simp only [payloadWords] at hp
  · match p, hp with
    | [w0, w1, w2, w3], _ => cases e; exact congrArg (_ :: ·) (packBlock_unpackBlock w0 w1 w2 w3)
  · match p, hp with
    | [w0, w1, w2, w3], _ => cases e; exact congrArg (_ :: ·) (packBlock_unpackBlock w0 w1 w2 w3)
  · match p, hp with
    | [_], _ => cases e; rfl
  · match p, hp with
    | [_, _], _ => cases e; rfl

/-- Settles O45: the words are those of the command taken, whose header has no reserved bits. -/
theorem encodeOfDecode : Obligations.EncodeOfDecode := by
  intro ws rest i e
  obtain ⟨h, p, hc, hd⟩ := takeCommand_of_decode e
  obtain ⟨rfl, hp⟩ := eq_of_takeCommand hc
  rcases decodeCommand_cases hp with ⟨-, hi⟩ | ⟨-, -, hr⟩ | ⟨hl, hres, hpay, -⟩
  · cases hi.symm.trans hd
  · cases hr.symm.trans hd
  · rw [encode_of_decodePayload hl hp (hpay.symm.trans hd), ← eq_setWidth_of_reservedField hres]

/-- The legal opcodes as numbers: 1..4. -/
theorem legalOpcode_iff_toNat : ∀ op : BitVec 4, legalOpcode op = true ↔ 1 ≤ op.toNat ∧ op.toNat ≤ 4 := by decide

/-- Settles O49: the three cases of a whole command exclude each other. -/
theorem illegalEncodingsAreTwoKinds : Obligations.IllegalEncodingsAreTwoKinds := by
  intro h p hp
  have hzero : h.extractLsb' 0 4 = 0#4 ↔ (opcode h).toNat = 0 := BitVec.toNat_inj.symm
  change (_ ↔ h.extractLsb' 0 4 = 0#4 ∨ 5 ≤ (opcode h).toNat) ∧
    (_ ↔ (1 ≤ (opcode h).toNat ∧ (opcode h).toNat ≤ 4) ∧ reservedField h ≠ 0#28) ∧ _
  rw [hzero, ← legalOpcode_eq_false_iff, ← legalOpcode_iff_toNat]
  rcases decodeCommand_cases hp with ⟨hl, hd⟩ | ⟨hl, hres, hd⟩ | ⟨hl, hres, -, i, hd⟩
  · simp [hl, hd]
  · simp [hl, hres, hd]
  · simp [hl, hres, hd]

/-- Settles O46: the opcode map is read off its 16 rows, and the words of a command off its encoding. -/
theorem opcodeMap : Obligations.OpcodeMap :=
  ⟨legalOpcode_iff_toNat, by decide, fun _ => ⟨rfl, rfl⟩, fun _ => ⟨rfl, rfl⟩, fun _ => ⟨rfl, rfl⟩,
    fun _ _ => ⟨rfl, rfl⟩⟩

/-- Settles O52: the words of the examples are the encodings of their commands, whose decoding is known. -/
theorem exampleWordsDecode : Obligations.ExampleWordsDecode :=
  ⟨decode_encode (.setKey #v[0x00#8, 0x01#8, 0x02#8, 0x03#8, 0x04#8, 0x05#8, 0x06#8, 0x07#8,
      0x08#8, 0x09#8, 0x0a#8, 0x0b#8, 0x0c#8, 0x0d#8, 0x0e#8, 0x0f#8]) [],
    decode_encode (.nextChunk 16#32) [], decode_encode (.apply 0x100#32 20#32) []⟩

/-! ## The payload of a response -/

/-- Byte k of packed word j is byte `4j + k` of the sequence, or 0 past its end. -/
theorem wordByte_packBytes (bytes : List Byte) {j k : Nat} (hk : k < 4) (hj : j < (packBytes bytes).length) :
    wordByte ((packBytes bytes).getD j 0#32) k = bytes.getD (4 * j + k) 0#8 := by
  have hlen : j < (bytes.length + 3) / 4 := by simpa [packBytes_eq_map] using hj
  have hword : (packBytes bytes).getD j 0#32 =
      packWord (bytes.getD (4 * j) 0#8) (bytes.getD (4 * j + 1) 0#8) (bytes.getD (4 * j + 2) 0#8)
        (bytes.getD (4 * j + 3) 0#8) := by
    simp [packBytes_eq_map, hlen]
  rw [hword, wordByte_packWord _ _ _ _ ⟨k, hk⟩]
  match k, hk with
  | 0, _ | 1, _ | 2, _ | 3, _ => rfl

theorem packBytes_length (bytes : List Byte) : (packBytes bytes).length = (bytes.length + 3) / 4 := by
  simp [packBytes_eq_map]

/-- Settles O51: the words of a byte sequence are the packings of its bytes, four by four. -/
theorem chunkPayloadPacking : Obligations.ChunkPayloadPacking := fun bytes =>
  ⟨packBytes_length bytes, fun _ _ => wordByte_packBytes bytes⟩

end Sys2Proof

namespace Sys2Proof.Machine

/-! ## The header of a response -/

/-- The bits of a response header: each is a bit of one field or 0. -/
theorem responseHeader_getLsbD (status : Status) (cause : BitVec 4) (len : BitVec 5) (off : BitVec 4) (i : Nat) :
    (responseHeader status cause len off).getLsbD i =
      if i < 4 then status.code.getLsbD i else if i < 8 then cause.getLsbD (i - 4)
      else if i < 16 then len.getLsbD (i - 8) else off.getLsbD (i - 16) := by
  simp only [responseHeader, BitVec.getLsbD_or, BitVec.getLsbD_shiftLeft, BitVec.getLsbD_setWidth]
  rcases Nat.lt_or_ge i 32 with hi | hi
  · interval_cases i <;> simp
  · simp [BitVec.getLsbD_of_ge, show ¬ i < 4 by omega, show ¬ i < 8 by omega, show ¬ i < 16 by omega,
      show 4 ≤ i - 16 by omega, show ¬ i < 32 by omega]

/-- Settles O50: field by field, from the bits of the header. -/
theorem responseHeaderFields : Obligations.ResponseHeaderFields := by
  intro status cause len off h
  have hbit := responseHeader_getLsbD status cause len off
  refine ⟨?_, ?_, ?_, ?_, ?_, ?_, ?_, rfl⟩
  all_goals
    refine BitVec.eq_of_getLsbD_eq fun i hi => ?_
    rw [BitVec.getLsbD_extractLsb', hbit]
    interval_cases i <;> simp

end Sys2Proof.Machine
end

section
/-! What the keystream operations leave unchanged, and the machine's invariant (10_state.md sections 3 to 8): the
commands, the reset and the host's moves keep it, each part of it by a rule about one operation. -/

namespace Sys2Proof.Machine

/-! ## BUF (20_memory.md section 3) -/

/-- Settles O43: the laws of `Memory.write`, and the one state a host store leaves. -/
theorem bufIsPlainMemory : Obligations.BufIsPlainMemory := by
  intro m a v hm
  have hsame := Memory.read_write_same hm a v
  have hother : ∀ b : Nat, b ≠ a → (m.write a v).read b = m.read b := fun b hb => Memory.read_write_other m hb v
  refine ⟨hsame, hother, Memory.wf_write hm a v, fun s t hs hst => ?_⟩
  obtain ⟨-, -, rfl⟩ := State.hostStore_eq_some.mp hst
  subst hs
  exact ⟨hsame, hother, rfl⟩

/-! ## Frames -/

/-- `TakeChunk` changes only `ST`, `SCR` and `POS`. -/
theorem takeChunk_frame (n : Nat) (s : State) :
    ∃ st scr pos, (takeChunk n s).2.2 = ((s.setSt st).setScr scr).setPos pos := by
  obtain ⟨st, scr, _, e⟩ := advance_frame s
  obtain ⟨pos, hs, -⟩ := takeChunk_spec n s
  exact ⟨st, scr, pos, by rw [hs, e]; rfl⟩

/-- `t` is `s` but for what the keystream operations write. -/
def State.StreamWrite (s t : State) : Prop :=
  ∃ st scr pos buf, t = (((s.setSt st).setScr scr).setPos pos).setBuf buf

theorem State.streamWrite_applyRange (s : State) (a n : Nat) : s.StreamWrite (applyRange a n s) := applyRange_frame a n s

theorem State.streamWrite_takeChunk {s s' : State} {n off len : Nat} (e : takeChunk n s = (off, len, s')) :
    s.StreamWrite s' := by
  obtain ⟨st, scr, pos, hs⟩ := takeChunk_frame n s
  rw [e] at hs
  exact ⟨st, scr, pos, s.buf, hs⟩

/-- An APPLY passes its checks exactly when it is of no byte, or both flags are set and its range is inside BUF. -/
theorem applyFault_eq_none_iff {addr len : Word32} {s : State} :
    applyFault addr len s = none ↔
      len = 0#32 ∨ (s.kv = true ∧ s.sv = true ∧ addr.toNat + len.toNat ≤ s.bufSize) := by
  by_cases hl : len = 0#32
  · simp [hl]
  · simp [hl, applyFault_eq_none hl]

@[simp] theorem applyRange_zero (a : Nat) (s : State) : applyRange a 0 s = s := rfl

/-- Settles O20: a command either takes a fault, which only a missing seed or a range outside BUF raises, or changes what
`takeChunk_frame` and `applyRange_frame` name. -/
theorem commandFrames : Obligations.CommandFrames := by
  intro s t
  refine ⟨fun key e => ?_, fun iv e => ?_, fun n e => ?_, fun addr len e => ?_⟩
  · cases e
    exact ⟨rfl, rfl, rfl, rfl, rfl, rfl, rfl, rfl, fun _ => rfl⟩
  · cases e
    exact ⟨rfl, rfl, rfl, rfl, rfl, rfl, rfl, rfl, fun _ => rfl⟩
  · rcases exec_nextChunk n s with ⟨c, hc, h⟩ | ⟨-, h⟩ <;> cases h.symm.trans e
    · refine ⟨rfl, rfl, rfl, fun hk hs => ?_, rfl, rfl, rfl, fun _ => rfl⟩
      cases hc.symm.trans (contextFault_eq_none.mpr ⟨hk, hs⟩)
    · obtain ⟨st, scr, pos, hs⟩ := takeChunk_frame n.toNat s
      rw [hs]
      exact ⟨rfl, rfl, rfl, fun _ _ => ⟨rfl, rfl⟩, rfl, rfl, rfl, fun _ => rfl⟩
  · rcases exec_apply addr len s with ⟨c, hc, h⟩ | ⟨-, h⟩ <;> cases h.symm.trans e
    · refine ⟨rfl, rfl, rfl, fun hk hs hin => ?_, rfl, rfl, rfl, fun _ _ _ => rfl⟩
      cases hc.symm.trans (applyFault_eq_none_iff.mpr (.inr ⟨hk, hs, hin⟩))
    · have hread : Memory.wf s.buf = true → ∀ a : Nat, a < addr.toNat ∨ addr.toNat + len.toNat ≤ a →
          (applyRange addr.toNat len.toNat s).buf.read a = s.buf.read a := fun hm a ha => by
        rw [applyRange_read hm, if_neg (by omega)]
      obtain ⟨st, scr, pos, buf, hs⟩ := applyRange_frame addr.toNat len.toNat s
      rw [hs] at hread ⊢
      exact ⟨rfl, rfl, rfl, fun _ _ _ => ⟨rfl, rfl⟩, rfl, rfl, rfl, hread⟩

/-! ## The invariant under the state's operations -/

/-- The codes of the causes are 1..5 (60_exceptions.md R201). -/
theorem FaultCause.code_bounds (c : FaultCause) : 1 ≤ c.code.toNat ∧ c.code.toNat ≤ 5 := by
  cases c <;> decide

section
variable {s : State} (h : s.Inv)
include h

theorem State.Inv.setCmd (ws : List Word32) : (s.setCmd ws).Inv :=
  ⟨h.position, h.noCause, h.someCause, h.canonical, h.inside⟩

theorem State.Inv.respond (ws : List Word32) : (s.respond ws).Inv :=
  ⟨h.position, h.noCause, h.someCause, h.canonical, h.inside⟩

theorem State.Inv.send (ws : List Word32) : (s.send ws).Inv :=
  ⟨h.position, h.noCause, h.someCause, h.canonical, h.inside⟩

theorem State.Inv.assertReset (m : Nat) : (s.assertReset m).Inv :=
  ⟨h.position, h.noCause, h.someCause, h.canonical, h.inside⟩

theorem State.Inv.afterHalted : s.afterHalted.Inv :=
  ⟨h.position, h.noCause, h.someCause, h.canonical, h.inside⟩

theorem State.Inv.afterFault (c : FaultCause) : (s.afterFault c.code).Inv :=
  ⟨h.position, nofun, fun _ => c.code_bounds, h.canonical, h.inside⟩

theorem State.Inv.setBuf {m : Memory} (hm : Memory.wf m = true) (hin : ∀ c ∈ m, c.1 < s.bufSize) :
    (s.setBuf m).Inv :=
  ⟨h.position, h.noCause, h.someCause, hm, hin⟩

/-- On a seeded core the keystream registers are free. -/
theorem State.Inv.setStream (hk : s.kv = true) (hs : s.sv = true) (st scr : Block) (pos : Fin 17) :
    (((s.setSt st).setScr scr).setPos pos).Inv :=
  ⟨fun _ _ => ⟨hk, hs⟩, h.noCause, h.someCause, h.canonical, h.inside⟩

/-- A range inside BUF, or of no byte, leaves cells inside BUF only. -/
theorem State.Inv.inside_applyRange {a n : Nat} (hin : n = 0 ∨ a + n ≤ s.bufSize) :
    ∀ c ∈ (applyRange a n s).buf, c.1 < s.bufSize := by
  intro c hc
  rcases mem_applyRange hc with ⟨hle, hlt⟩ | hc
  · omega
  · exact h.inside c hc

/-- An APPLY that passes its checks keeps the invariant: of no byte it does nothing, else the core is seeded. -/
theorem State.Inv.after_applyRange {addr len : Word32} (hn : applyFault addr len s = none) :
    (applyRange addr.toNat len.toNat s).Inv := by
  rcases applyFault_eq_none_iff.mp hn with rfl | ⟨hk, hs, hin⟩
  · exact h
  · have hwf := applyRange_wf h.canonical addr.toNat len.toNat
    have hcells := h.inside_applyRange (.inr hin)
    obtain ⟨st, scr, pos, buf, e⟩ := applyRange_frame addr.toNat len.toNat s
    rw [e] at hwf hcells ⊢
    exact (h.setStream hk hs st scr pos).setBuf hwf hcells

/-- Every command keeps the invariant: SET_KEY and SET_IV leave POS = 16, and the others take a fault or find the core
seeded. -/
theorem State.Inv.after_exec {i : Instr} {t : State} (e : exec i s = .next t) : t.Inv := by
  cases i with
  | setKey key =>
    cases e
    exact ⟨fun _ hlt => absurd hlt (Nat.lt_irrefl 16), h.noCause, h.someCause, h.canonical, h.inside⟩
  | setIv iv =>
    cases e
    exact ⟨fun _ hlt => absurd hlt (Nat.lt_irrefl 16), h.noCause, h.someCause, h.canonical, h.inside⟩
  | nextChunk n =>
    rcases exec_nextChunk n s with ⟨c, -, hx⟩ | ⟨hn, hx⟩ <;> cases hx.symm.trans e
    · exact h.afterFault c
    · obtain ⟨hk, hs⟩ := contextFault_eq_none.mp hn
      obtain ⟨st, scr, pos, ht⟩ := takeChunk_frame n.toNat s
      rw [ht]
      exact (h.setStream hk hs st scr pos).respond _
  | apply addr len =>
    rcases exec_apply addr len s with ⟨c, -, hx⟩ | ⟨hn, hx⟩ <;> cases hx.symm.trans e
    · exact h.afterFault c
    · exact (h.after_applyRange hn).respond _

end

/-! ## Reset -/

/-- Settles O36: the values are fields of `State.resetWith`. -/
theorem resetStateValues : Obligations.ResetStateValues := fun _ _ _ => ⟨rfl, rfl, rfl, rfl, rfl, rfl, rfl⟩

/-- A reset leaves the invariant wherever BUF is canonical and inside: neither KV nor SV is set. -/
theorem State.inv_resetWith {top : BitVec 32} {m : Memory} (k : Nat) (hm : Memory.wf m = true)
    (hin : ∀ c ∈ m, c.1 < top.toNat + 1) : (State.resetWith top m k).Inv :=
  ⟨nofun, fun _ => rfl, nofun, hm, hin⟩

/-- BUF as a reset finds it: untouched, or with the first bytes written of an APPLY that would complete. -/
theorem cutBuf_cases (m : Nat) (s : State) :
    cutBuf m s = s.buf ∨
      ∃ addr len rest, s.flt = false ∧ decode s.cmd = .ok (.apply addr len, rest) ∧ applyFault addr len s = none ∧
        cutBuf m s = (applyRange addr.toNat (min m len.toNat) s).buf := by
  simp only [cutBuf]
  split
  · exact .inl rfl
  · rename_i hf
    split
    · rename_i addr len rest hd
      split
      · exact .inl rfl
      · rename_i hn
        exact .inr ⟨addr, len, rest, by simpa using hf, hd, hn, rfl⟩
    · exact .inl rfl

/-- A reset keeps the invariant: the bytes it may find written are inside the range of the APPLY, and so inside BUF. -/
theorem State.Inv.after_takeReset {s : State} (h : s.Inv) (m : Nat) : (takeReset m s).Inv := by
  rcases cutBuf_cases m s with e | ⟨addr, len, rest, -, -, hn, e⟩
  all_goals
    rw [takeReset, e]
    refine State.inv_resetWith _ ?_ ?_
  · exact h.canonical
  · exact h.inside
  · exact applyRange_wf h.canonical _ _
  · refine h.inside_applyRange ?_
    rcases applyFault_eq_none_iff.mp hn with rfl | ⟨-, -, hin⟩
    · exact .inl (Nat.min_zero m)
    · omega

/-! ## The statements -/

/-- Settles O39: a step takes a reset, answers HALTED, takes a fault of the header, or executes a command, and each keeps
the invariant. -/
theorem stepKeepsInv : Obligations.StepKeepsInv := by
  intro s t h e
  rcases step_cases e with ⟨m, -, rfl⟩ | ⟨-, hd, p, rest, -, ⟨-, rfl⟩ | ⟨-, -, rfl⟩ | ⟨-, -, rfl⟩ | ⟨-, i, -, hx⟩⟩
  · exact h.after_takeReset m
  · exact (h.setCmd rest).afterHalted
  · exact (h.setCmd rest).afterFault .illegalOpcode
  · exact (h.setCmd rest).afterFault .reservedBits
  · exact (h.setCmd rest).after_exec hx

/-- Settles O40: BUF of `State.reset` lists no cell. -/
theorem resetHasInv : Obligations.ResetHasInv := State.inv_resetWith 0 rfl nofun

/-- Settles O55: sending and RST touch nothing the invariant speaks of, and a host write keeps BUF canonical
and inside. -/
theorem hostMovesKeepInv : Obligations.HostMovesKeepInv := by
  intro s h
  refine ⟨h.send, h.assertReset, fun a v t e => ?_⟩
  obtain ⟨-, ha, rfl⟩ := State.hostStore_eq_some.mp e
  refine h.setBuf (Memory.wf_write h.canonical a v) fun c hc => ?_
  rcases Memory.mem_write hc with rfl | hc
  · exact ha
  · exact h.inside c hc

end Sys2Proof.Machine
end

section
/-! Laws of the keystream (43_commands.md section 4): the commands hand out one stream in order, and an APPLY may be cut
anywhere. -/

namespace Sys2Proof.Machine

/-- Settles O13: the rounds through Scratch are the function form (`cipherPass_eq`). -/
theorem cipherPassRefinesCipher : Obligations.CipherPassRefinesCipher := fun s => ⟨cipher s.st s.w, cipherPass_eq s⟩

/-! ## The place in the stream (43_commands.md R167) -/

/-- State holds block `b` of the stream of `iv`, and `taken` of the stream's bytes have been handed out. -/
structure State.AtByte (s : State) (iv : Block) (b taken : Nat) : Prop where
  st : s.st = nthBlock s.w b iv
  count : taken + 16 = 16 * b + s.pos.val

/-- The bytes ahead are those of the stream from the place reached on. -/
theorem State.AtByte.keystream_eq_stream {s : State} {iv : Block} {b taken : Nat} (h : s.AtByte iv b taken) (j : Nat) :
    keystreamByte s j = streamByte s.w iv (taken + j) := by
  have hcount := h.count
  have hplace : s.pos.val + j = 16 * ((s.pos.val + j) / 16) + (taken + j) % 16 := by omega
  have hblock : (taken + j) / 16 + 1 = (s.pos.val + j) / 16 + b := by omega
  rw [keystreamByte_eq s (Nat.mod_lt _ (by decide)) hplace, h.st, ← nthBlock_add]
  simp only [streamByte, hblock]

/-- `Advance` hands out no byte. -/
theorem State.AtByte.after_advance {s : State} {iv : Block} {b taken : Nat} (h : s.AtByte iv b taken) :
    ∃ b', (advance s).AtByte iv b' taken := by
  have hcount := h.count
  rcases advance_cases s with ⟨-, e⟩ | ⟨hp, e⟩ <;> rw [e]
  · exact ⟨b, h⟩
  · refine ⟨b + 1, by simp [nthBlock, ← h.st], ?_⟩
    show taken + 16 = 16 * (b + 1) + 0
    omega

/-- `TakeChunk` moves the place on by the length of its chunk. -/
theorem State.AtByte.after_takeChunk {s t : State} {iv : Block} {b taken n off len : Nat} (h : s.AtByte iv b taken)
    (e : takeChunk n s = (off, len, t)) : ∃ b', t.AtByte iv b' (taken + len) := by
  obtain ⟨b', hst, hcount⟩ := h.after_advance
  obtain ⟨p, hs, hoff, -, hp⟩ := takeChunk_spec n s
  rw [e] at hs hoff hp
  simp only at hs hoff hp
  rw [hs]
  exact ⟨b', hst, by simp only [State.setPos_pos]; omega⟩

/-- A range moves the place on by its length. -/
theorem State.AtByte.after_applyRange {s : State} {iv : Block} {b taken : Nat} (h : s.AtByte iv b taken) (a n : Nat) :
    ∃ b', (applyRange a n s).AtByte iv b' (taken + n) := by
  cases n with
  | zero => exact ⟨b, h⟩
  | succ n =>
    have hcount := h.count
    obtain ⟨hst, hpos⟩ := applyRange_last a n s
    exact ⟨(s.pos.val + n) / 16 + b, by rw [hst, h.st, applyRange_w, nthBlock_add], by omega⟩

/-- The chunk `TakeChunk` hands out is the stream's next bytes. -/
theorem State.AtByte.chunk_getElem? {s t : State} {iv : Block} {b taken n off len : Nat} (h : s.AtByte iv b taken)
    (e : takeChunk n s = (off, len, t)) {m : Nat} (hm : m < len) :
    t.st[off + m]? = some (streamByte s.w iv (taken + m)) := by
  obtain ⟨p, hs, hoff, hlen, -⟩ := takeChunk_spec n s
  rw [e] at hs hoff hlen
  simp only at hs hoff hlen
  have hlt : (advance s).pos.val + m < 16 := by omega
  rw [hs, hoff, State.setPos_st, Vector.getElem?_eq_getElem hlt, ← keystreamByte_current _ hlt, keystreamByte_advance,
    h.keystream_eq_stream]

/-- The bounds of a chunk. -/
theorem takeChunk_bounds {s t : State} {n off len : Nat} (e : takeChunk n s = (off, len, t)) :
    off ≤ 15 ∧ off + len ≤ 16 ∧ len ≤ n := by
  have hlt := advance_pos_lt s
  obtain ⟨p, -, hoff, hlen, -⟩ := takeChunk_spec n s
  rw [e] at hoff hlen
  simp only at hoff hlen
  omega

/-- NEXT_CHUNK on a seeded core hands out the stream's next bytes and moves the place on by as many. -/
theorem State.AtByte.after_nextChunk {s : State} {iv : Block} {b taken : Nat} (h : s.AtByte iv b taken)
    (hk : s.kv = true) (hs : s.sv = true) (n : Word32) :
    ∃ (t : State) (off len b' : Nat),
      exec (.nextChunk n) s = .next t ∧
        t.rsp = s.rsp ++ BitVec.ofNat 32 (len * 2 ^ 8 + off * 2 ^ 16) ::
          (List.range ((len + 3) / 4)).map (chunkWord t.st off len) ∧
        off + len ≤ 16 ∧ len ≤ n.toNat ∧
        (∀ m : Nat, m < len → t.st[off + m]? = some (streamByte s.w iv (taken + m))) ∧
        t.AtByte iv b' (taken + len) := by
  rcases e : takeChunk n.toNat s with ⟨off, len, t⟩
  obtain ⟨hoff, hend, hlen⟩ := takeChunk_bounds e
  obtain ⟨b', hb'⟩ := h.after_takeChunk e
  have hrsp : t.rsp = s.rsp := by
    obtain ⟨st, scr, pos, buf, rfl⟩ := State.streamWrite_takeChunk e
    rfl
  refine ⟨_, off, len, b', exec_nextChunk_of_seeded (contextFault_eq_none.mpr ⟨hk, hs⟩) e, ?_, hend, hlen,
    fun m hm => h.chunk_getElem? e hm, hb'.st, hb'.count⟩
  rw [State.respond_rsp, hrsp, chunkResponse_eq t.st hoff hend]
  rfl

/-- APPLY of a range inside BUF on a seeded core XORs the stream's next bytes into it and moves the place on by as
many. -/
theorem State.AtByte.after_apply {s : State} {iv : Block} {b taken : Nat} (h : s.AtByte iv b taken)
    (hk : s.kv = true) (hs : s.sv = true) {addr len : Word32} (hin : addr.toNat + len.toNat ≤ s.bufSize)
    (hm : Memory.wf s.buf = true) :
    ∃ (t : State) (b' : Nat),
      exec (.apply addr len) s = .next t ∧
        (∀ i : Nat, i < len.toNat →
          t.buf.read (addr.toNat + i) = s.buf.read (addr.toNat + i) ^^^ streamByte s.w iv (taken + i)) ∧
        t.AtByte iv b' (taken + len.toNat) := by
  obtain ⟨b', hb'⟩ := h.after_applyRange addr.toNat len.toNat
  refine ⟨_, b', exec_apply_of_inside hk hs hin, fun i hi => ?_, hb'.st, hb'.count⟩
  rw [State.respond_buf, applyRange_read hm, if_pos (by omega), Nat.add_sub_cancel_left, h.keystream_eq_stream]

/-- SET_KEY and SET_IV commute: each leaves POS = 16, and they write different registers. -/
theorem execAll_setKey_setIv_comm (key iv : Block) (is : List Instr) (s : State) :
    execAll (.setKey key :: .setIv iv :: is) s = execAll (.setIv iv :: .setKey key :: is) s := rfl

/-- Settles O24: SET_IV starts the stream, and the other two commands keep the place in it. -/
theorem keystreamLaw : Obligations.KeystreamLaw := by
  refine ⟨fun iv s t e => ?_, fun iv s b taken hk hs hst hcount => ?_,
    fun key iv s => execAll_setKey_setIv_comm key iv [] s⟩
  · cases e
    exact ⟨rfl, rfl⟩
  · have h : s.AtByte iv b taken := ⟨hst, hcount⟩
    refine ⟨fun n => ?_, fun addr len hin hm => ?_⟩
    · obtain ⟨t, off, len, b', e, hrsp, hoff, hlen, hbytes, hst', hcount'⟩ := h.after_nextChunk hk hs n
      exact ⟨t, off, len, b', e, hrsp, hoff, hlen, hbytes, hst', hcount'⟩
    · obtain ⟨t, b', e, hbytes, hst', hcount'⟩ := h.after_apply hk hs hin hm
      exact ⟨t, b', e, hbytes, hst', hcount'⟩

/-! ## What the keystream operations read -/

/-- Two machines that agree on what an APPLY reads and writes, but for Scratch. -/
structure State.SameStream (s t : State) : Prop where
  w : s.w = t.w
  st : s.st = t.st
  pos : s.pos = t.pos
  buf : s.buf = t.buf

theorem State.SameStream.trans {s t u : State} (h : s.SameStream t) (h' : t.SameStream u) : s.SameStream u :=
  ⟨h.w.trans h'.w, h.st.trans h'.st, h.pos.trans h'.pos, h.buf.trans h'.buf⟩

theorem State.SameStream.after_applyOne {s t : State} (h : s.SameStream t) (a : Nat) :
    (applyOne a s).SameStream (applyOne a t) where
  w := by rw [applyOne_w, applyOne_w, h.w]
  st := by rw [applyOne_st, applyOne_st, h.w, h.st, h.pos]
  pos := Fin.ext (by rw [applyOne_pos, applyOne_pos, h.pos])
  buf := by rw [applyOne_buf, applyOne_buf, h.buf, keystreamByte_congr h.w h.st h.pos]

/-- A range is done alike by machines that agree on what it reads. -/
theorem State.SameStream.after_applyRange {s t : State} (h : s.SameStream t) (a n : Nat) :
    (applyRange a n s).SameStream (applyRange a n t) := by
  rw [applyRange_eq, applyRange_eq]
  induction n generalizing a s t with
  | zero => exact h
  | succ n ih => exact ih (h.after_applyOne a) (a + 1)

/-! ## An APPLY in any chunks (43_commands.md R168) -/

/-- An APPLY of a split: its address is in BUF, or its part is empty, for the end of BUF may be address 2^32. -/
theorem exec_apply_ofNat {s : State} (hk : s.kv = true) (hs : s.sv = true) {a : Nat} {l : Word32}
    (hin : a + l.toNat ≤ s.bufSize) :
    exec (.apply (BitVec.ofNat 32 a) l) s = .next ((applyRange a l.toNat s).respond [okHeader]) := by
  by_cases hl : l = 0#32
  · rw [hl]
    exact exec_apply_of_noFault (applyFault_zero _ s)
  · have ha : (BitVec.ofNat 32 a).toNat = a := by
      have hpos : 0 < l.toNat := by bv_omega
      have hsize : s.bufSize ≤ 2 ^ 32 := s.bufTop.isLt
      exact Nat.mod_eq_of_lt (by omega)
    have e := exec_apply_of_inside (addr := BitVec.ofNat 32 a) (len := l) hk hs (by rw [ha]; exact hin)
    rwa [ha] at e

/-- A split leaves what its parts' sum would leave in one range, and no fault. -/
theorem execAll_splitApply {s : State} (hk : s.kv = true) (hs : s.sv = true) {a : Nat} {parts : List Word32}
    (hin : a + (parts.map BitVec.toNat).sum ≤ s.bufSize) :
    ∃ u, execAll (splitApply a parts) s = some u ∧ u.flt = s.flt ∧
      u.SameStream (applyRange a (parts.map BitVec.toNat).sum s) := by
  induction parts generalizing a s with
  | nil => exact ⟨s, rfl, rfl, rfl, rfl, rfl, rfl⟩
  | cons l ls ih =>
    simp only [List.map_cons, List.sum_cons] at hin ⊢
    have e := exec_apply_ofNat hk hs (a := a) (l := l) (by omega)
    obtain ⟨s1, hs1⟩ : ∃ s1, s1 = (applyRange a l.toNat s).respond [okHeader] := ⟨_, rfl⟩
    have hsame : s1.SameStream (applyRange a l.toNat s) := by rw [hs1]; exact ⟨rfl, rfl, rfl, rfl⟩
    have hframe : s1.kv = s.kv ∧ s1.sv = s.sv ∧ s1.flt = s.flt ∧ s1.bufSize = s.bufSize := by
      obtain ⟨st, scr, pos, buf, hr⟩ := applyRange_frame a l.toNat s
      simp [hs1, hr]
    obtain ⟨hk1, hs1v, hf1, hsize1⟩ := hframe
    obtain ⟨u, hu, hflt, hsplit⟩ := ih (hk1.trans hk) (hs1v.trans hs) (a := a + l.toNat) (by rw [hsize1]; omega)
    refine ⟨u, by simp only [splitApply, execAll, e, ← hs1, hu], hflt.trans hf1, ?_⟩
    rw [applyRange_add]
    exact hsplit.trans (hsame.after_applyRange _ _)

/-- Settles O25: both are the range of the whole length. -/
theorem applyInAnyChunks : Obligations.ApplyInAnyChunks := by
  intro s addr len parts hk hs hf hin hsum
  obtain ⟨u, hu, hflt, hsame⟩ := execAll_splitApply hk hs (a := addr.toNat) (parts := parts) (by rw [hsum]; exact hin)
  rw [hsum] at hsame
  exact ⟨_, u, exec_apply_of_inside hk hs hin, hu, hflt.trans hf, hsame.buf, hsame.st, hsame.pos⟩

end Sys2Proof.Machine
end

section
/-! The command cycle and the channel (43_commands.md section 3; 30_encoding.md section 6; 60_exceptions.md;
70_reset_and_hazards.md): when a core steps, what it answers, what a reset cuts off, and what the host sees. -/

namespace Sys2Proof.Machine

/-! ## When a core steps -/

/-- With no whole command on CMD and no reset pending, the core waits. -/
theorem step_of_no_command {s : State} (hr : s.rst = none) (hc : takeCommand s.cmd = none) :
    step s = .fault .awaitingCommand := by
  simp only [step, hr, commandCycle, hc]

/-- A whole command is answered, whatever it is. -/
theorem runCommand_answers {h : Word32} {p : List Word32} (hp : p.length = payloadWords (opcode h)) (s : State) :
    ∃ t, runCommand h p s = .next t := by
  simp only [runCommand]
  split
  · exact ⟨_, rfl⟩
  · rcases decodeCommand_cases hp with ⟨-, hd⟩ | ⟨-, -, hd⟩ | ⟨-, -, -, i, hd⟩ <;> rw [hd]
    · exact ⟨_, rfl⟩
    · exact ⟨_, rfl⟩
    · exact exec_answers i s

/-- Settles O23: a reset is taken, a whole command is answered, and no other core steps. -/
theorem onlyAWaitingCoreHasNoStep : Obligations.OnlyAWaitingCoreHasNoStep := by
  intro s
  rcases hr : s.rst with - | m
  · rcases hc : takeCommand s.cmd with - | ⟨h, p, rest⟩
    · exact .inr ⟨step_of_no_command hr hc, rfl, takeCommand_eq_none hc⟩
    · obtain ⟨-, hp⟩ := eq_of_takeCommand hc
      rw [step_command hr hc]
      exact .inl (runCommand_answers hp _)
  · exact .inl ⟨takeReset m s, by simp only [step, hr]⟩

/-- Settles O21: the command taken decodes to the instruction, so the cycle comes to its meaning. -/
theorem stepRunsTheDecodedCommand : Obligations.StepRunsTheDecodedCommand := by
  intro s i rest hr hf hd _
  obtain ⟨h, p, hc, hi⟩ := takeCommand_of_decode hd
  rw [step_command hr hc, runCommand, State.setCmd_flt, if_neg (by simp [hf]), hi]
  rfl

/-- A step on the words of a command is its meaning. -/
theorem step_encode {s : State} {i : Instr} {rest : List Word32} (hr : s.rst = none) (hf : s.flt = false)
    (hc : s.cmd = encode i ++ rest) : step s = exec i (s.setCmd rest) :=
  stepRunsTheDecodedCommand s i rest hr hf (by rw [hc]; exact decode_encode i rest) (by cases i <;> rfl)

theorem step_setCmd_encode {s : State} (hr : s.rst = none) (hf : s.flt = false) (i : Instr) (rest : List Word32) :
    step (s.setCmd (encode i ++ rest)) = exec i (s.setCmd rest) :=
  step_encode (s := s.setCmd (encode i ++ rest)) hr hf rfl

/-! ## Seeding and BLOCK (30_encoding.md R85) -/

/-- `s` after SET_KEY (43_commands.md R162). -/
def State.afterSetKey (s : State) (key : Block) : State :=
  { s with w := keyExpansion key, kv := true, pos := 16, rsp := s.rsp ++ [0x00000000#32] }

/-- `s` after SET_IV (43_commands.md R163). -/
def State.afterSetIv (s : State) (iv : Block) : State :=
  { s with st := iv, sv := true, pos := 16, rsp := s.rsp ++ [0x00000000#32] }

theorem exec_setKey_eq_afterSetKey (key : Block) (s : State) : exec (.setKey key) s = .next (s.afterSetKey key) :=
  exec_setKey key s

theorem exec_setIv_eq_afterSetIv (iv : Block) (s : State) : exec (.setIv iv) s = .next (s.afterSetIv iv) :=
  exec_setIv iv s

/-- A command after both seeds runs on the state they leave. -/
theorem execAll_setKey_setIv {key iv : Block} {i : Instr} {s t : State}
    (e : exec i ((s.afterSetKey key).afterSetIv iv) = .next t) : execAll [.setKey key, .setIv iv, i] s = some t := by
  simp only [execAll, exec_setKey_eq_afterSetKey, exec_setIv_eq_afterSetIv, e]

/-- Settles O28: the chunk after both seeds is the whole first block of the stream, the cipher of the IV. -/
theorem blockAnswersWithTheCipher : Obligations.BlockAnswersWithTheCipher := fun s key input =>
  ⟨_, execAll_setKey_setIv (exec_nextChunk_whole rfl rfl rfl), by simp [State.afterSetKey, State.afterSetIv]⟩

/-- Settles O53: each of the three steps is the meaning of its command. -/
theorem blockRunsOnTheChannel : Obligations.BlockRunsOnTheChannel := by
  intro s key input rest hr hf hc
  rw [List.append_assoc, List.append_assoc] at hc
  refine ⟨(s.afterSetKey key).setCmd (encode (.setIv input) ++ (encode (.nextChunk 16#32) ++ rest)),
    ((s.afterSetKey key).afterSetIv input).setCmd (encode (.nextChunk 16#32) ++ rest), _, step_encode hr hf hc,
    step_setCmd_encode (s := s.afterSetKey key) hr hf _ _,
    (step_setCmd_encode (s := (s.afterSetKey key).afterSetIv input) hr hf _ _).trans (exec_nextChunk_whole rfl rfl rfl),
    rfl, hf, ?_⟩
  simp [State.afterSetKey, State.afterSetIv]

/-! ## Keystream use before both seeds (70_reset_and_hazards.md section 2) -/

/-- A NEXT_CHUNK, and an APPLY of at least one byte, take the fault of a missing seed. -/
theorem exec_of_contextFault {s : State} {c : FaultCause} {n addr len : Word32} (hl : len ≠ 0#32)
    (hc : contextFault s = some c) {i : Instr} (hi : i ∈ [Instr.nextChunk n, Instr.apply addr len]) :
    exec i s = .next (s.afterFault c.code) := by
  rcases List.mem_pair.mp hi with rfl | rfl
  · exact exec_nextChunk_of_fault hc
  · exact exec_apply_of_fault (applyFault_of_contextFault hl hc)

/-- Settles O37: SET_KEY sets only KV and SET_IV only SV, and with both no check fails. -/
theorem bootNeedsKeyAndIv : Obligations.BootNeedsKeyAndIv := by
  intro top m k key iv n addr len hl r
  refine ⟨fun i hi => ⟨exec_of_contextFault hl (contextFault_of_noKey rfl) hi,
    ⟨_, rfl, exec_of_contextFault hl (contextFault_of_noKey rfl) hi⟩,
    ⟨_, rfl, exec_of_contextFault hl (contextFault_of_noIv rfl rfl) hi⟩⟩, ?_⟩
  obtain ⟨t, e, hf, -⟩ :=
    exec_of_no_commandFault (i := .nextChunk n) (s := (r.afterSetKey key).afterSetIv iv) rfl
  have hboth := execAll_setKey_setIv e
  exact ⟨t, hboth, hf, (execAll_setKey_setIv_comm key iv [.nextChunk n] r).symm.trans hboth⟩

/-! ## What a reset cuts off (70_reset_and_hazards.md section 1) -/

/-- An APPLY that would complete is found with its first bytes written. -/
theorem cutBuf_of_apply {s : State} {addr len : Word32} {rest : List Word32} (m : Nat) (hf : s.flt = false)
    (hd : decode s.cmd = .ok (.apply addr len, rest)) (hn : applyFault addr len s = none) :
    cutBuf m s = (applyRange addr.toNat (min m len.toNat) s).buf := by
  simp [cutBuf, hf, hd, hn]

/-- Settles O35: the reset state, with BUF as `cutBuf` finds it. -/
theorem resetCutsTheCommandOff : Obligations.ResetCutsTheCommandOff := by
  intro s m hr
  refine ⟨takeReset m s, by simp only [step, hr], rfl, rfl, rfl, rfl, rfl, rfl, rfl, rfl, ?_, ?_⟩
  · intro addr len rest hf hd hk hs hin hm a
    have e := cutBuf_of_apply m hf hd (applyFault_eq_none_iff.mpr (.inr ⟨hk, hs, hin⟩))
    exact (congrArg (Memory.read · a) e).trans (applyRange_read hm _ _ a)
  · intro hno
    rcases cutBuf_cases m s with e | ⟨addr, len, rest, hf, hd, hn, e⟩
    · exact e
    · rcases applyFault_eq_none_iff.mp hn with rfl | ⟨hk, hs, hin⟩
      · exact e.trans (by simp)
      · have := hno addr len rest hd
        simp [hf, hk, hs, not_lt.mpr hin] at this

/-! ## The host and BUF (20_memory.md section 3) -/

/-- Settles O54: the words of the APPLY on CMD keep the host off, and the step that answers it takes them all. -/
theorem hostKeepsOffBufDuringACommand : Obligations.HostKeepsOffBufDuringACommand := by
  intro s
  refine ⟨fun addr len a v => ?_, fun a v hoff => ?_, fun a v hc hr ha => ?_, fun addr len hr hc hf hk hs hin hm => ?_⟩
  · have hcmd : (s.send (encode (.apply addr len))).cmd ≠ [] := List.append_ne_nil_of_right_ne_nil _ nofun
    exact ⟨State.hostLoad_eq_none (.inl hcmd) a, State.hostStore_eq_none (.inl hcmd) a v⟩
  · have hno : ¬ (s.hostOwnsBuf = true ∧ a < s.bufSize) := by
      rw [State.hostOwnsBuf_iff]
      rintro ⟨⟨hc, hr⟩, ha⟩
      rcases hoff with h | h | h
      · exact h hc
      · exact h hr
      · exact absurd ha (not_lt.mpr h)
    exact ⟨if_neg hno, if_neg hno⟩
  · exact ⟨State.hostLoad_eq_some.mpr ⟨⟨hc, hr⟩, ha, rfl⟩, State.hostStore_eq_some.mpr ⟨⟨hc, hr⟩, ha, rfl⟩⟩
  · have e : step (s.send (encode (.apply addr len))) = exec (.apply addr len) (s.setCmd []) := by
      refine step_encode hr hf ?_
      rw [State.send_cmd, hc, List.append_nil, List.nil_append]
    refine ⟨_, e.trans (exec_apply_of_inside hk hs hin), fun a ha => ?_⟩
    have hread := applyRange_read (s := s.setCmd []) hm addr.toNat len.toNat a
    obtain ⟨st, scr, pos, buf, ht⟩ := applyRange_frame addr.toNat len.toNat (s.setCmd [])
    rw [ht] at hread ⊢
    exact State.hostLoad_eq_some.mpr ⟨⟨rfl, hr⟩, ha, hread.symm⟩

end Sys2Proof.Machine
end

section
/-! What reaches the host: machines that differ only in registers no command has written answer alike (10_state.md R27,
R34, R37), and each command is answered by one response with legal fields (30_encoding.md R77 to R79, R86). -/

namespace Sys2Proof.Machine

/-! ## Machines that agree on what the keystream operations read -/

theorem State.SameStream.after_advance {s t : State} (h : s.SameStream t) : (advance s).SameStream (advance t) := by
  obtain ⟨b, hs⟩ := advance_eq s
  obtain ⟨b', ht⟩ := advance_eq t
  rw [hs, ht]
  exact ⟨h.w, by simp only [h.w, h.st, h.pos], by simp only [h.pos], h.buf⟩

/-- The same chunk is handed out, and what is left agrees. -/
theorem State.SameStream.after_takeChunk {s t s' : State} {n off len : Nat} (h : s.SameStream t)
    (e : takeChunk n s = (off, len, s')) : ∃ t', takeChunk n t = (off, len, t') ∧ s'.SameStream t' := by
  have ha := h.after_advance
  rw [takeChunk_eq, ha.pos] at e
  cases e
  exact ⟨_, takeChunk_eq n t, ha.w, ha.st, rfl, ha.buf⟩

/-! ## Machines the host cannot tell apart -/

section
variable {s t : State} (h : s.SameToHost t)
include h

theorem State.SameToHost.setCmd (ws : List Word32) : (s.setCmd ws).SameToHost (t.setCmd ws) :=
  { h with cmd := rfl }

theorem State.SameToHost.respond (ws : List Word32) : (s.respond ws).SameToHost (t.respond ws) :=
  { h with rsp := congrArg (· ++ ws) h.rsp }

theorem State.SameToHost.afterHalted : s.afterHalted.SameToHost t.afterHalted :=
  { h with rsp := by simp only [State.afterHalted, h.rsp, h.cause] }

theorem State.SameToHost.afterFault (c : BitVec 4) : (s.afterFault c).SameToHost (t.afterFault c) :=
  { h with flt := rfl, cause := rfl, rsp := congrArg (· ++ _) h.rsp }

/-- Agreeing new contents of the keystream registers and of BUF keep the host from telling them apart. -/
theorem State.SameToHost.of_streamWrite {s' t' : State} (hs : s.StreamWrite s') (ht : t.StreamWrite t')
    (hsame : s'.SameStream t') : s'.SameToHost t' := by
  obtain ⟨st, scr, pos, buf, rfl⟩ := hs
  obtain ⟨st', scr', pos', buf', rfl⟩ := ht
  exact { h with buf := hsame.buf, st := fun _ => hsame.st, pos := fun _ _ => hsame.pos }

theorem State.SameToHost.contextFault_eq : contextFault s = contextFault t := by
  simp only [contextFault, h.kv, h.sv]

theorem State.SameToHost.applyFault_eq (addr len : Word32) : applyFault addr len s = applyFault addr len t := by
  have hsize : s.bufSize = t.bufSize := congrArg (·.toNat + 1) h.bufTop
  rw [applyFault, applyFault, h.contextFault_eq, hsize]

/-- On a seeded core nothing the keystream operations read is hidden. -/
theorem State.SameToHost.sameStream (hk : s.kv = true) (hs : s.sv = true) : s.SameStream t :=
  ⟨h.w hk, h.st hs, h.pos hk hs, h.buf⟩

/-- An APPLY that passes its checks is of no byte, or its core is seeded. -/
theorem State.SameToHost.after_applyRange {addr len : Word32} (hn : applyFault addr len s = none) (n : Nat) :
    (applyRange addr.toNat (min n len.toNat) s).SameToHost (applyRange addr.toNat (min n len.toNat) t) := by
  rcases applyFault_eq_none_iff.mp hn with rfl | ⟨hk, hs, -⟩
  · simpa using h
  · exact h.of_streamWrite (s.streamWrite_applyRange _ _) (t.streamWrite_applyRange _ _)
      ((h.sameStream hk hs).after_applyRange _ _)

/-- A command answers both alike. -/
theorem State.SameToHost.after_exec (i : Instr) :
    ∃ s' t', exec i s = .next s' ∧ exec i t = .next t' ∧ s'.SameToHost t' := by
  cases i with
  | setKey key =>
    exact ⟨_, _, exec_setKey key s, exec_setKey key t,
      { h with w := fun _ => rfl, kv := rfl, pos := fun _ _ => rfl, rsp := congrArg (· ++ _) h.rsp }⟩
  | setIv iv =>
    exact ⟨_, _, exec_setIv iv s, exec_setIv iv t,
      { h with st := fun _ => rfl, sv := rfl, pos := fun _ _ => rfl, rsp := congrArg (· ++ _) h.rsp }⟩
  | nextChunk n =>
    cases hc : contextFault s with
    | some c =>
      exact ⟨_, _, exec_nextChunk_of_fault hc, exec_nextChunk_of_fault (h.contextFault_eq ▸ hc), h.afterFault c.code⟩
    | none =>
      obtain ⟨hk, hs⟩ := contextFault_eq_none.mp hc
      rcases e : takeChunk n.toNat s with ⟨off, len, s'⟩
      obtain ⟨t', e', hsame⟩ := (h.sameStream hk hs).after_takeChunk e
      have h' := h.of_streamWrite (State.streamWrite_takeChunk e) (State.streamWrite_takeChunk e') hsame
      refine ⟨_, _, exec_nextChunk_of_seeded hc e, exec_nextChunk_of_seeded (h.contextFault_eq ▸ hc) e', ?_⟩
      rw [hsame.st]
      exact h'.respond _
  | apply addr len =>
    cases hc : applyFault addr len s with
    | some c =>
      exact ⟨_, _, exec_apply_of_fault hc, exec_apply_of_fault (h.applyFault_eq addr len ▸ hc), h.afterFault c.code⟩
    | none =>
      have hrange := h.after_applyRange hc len.toNat
      rw [Nat.min_self] at hrange
      exact ⟨_, _, exec_apply_of_noFault hc, exec_apply_of_noFault (h.applyFault_eq addr len ▸ hc), hrange.respond _⟩

/-- A whole command answers both alike. -/
theorem State.SameToHost.after_runCommand {hd : Word32} {p : List Word32} (hp : p.length = payloadWords (opcode hd)) :
    ∃ s' t', runCommand hd p s = .next s' ∧ runCommand hd p t = .next t' ∧ s'.SameToHost t' := by
  simp only [runCommand, ← h.flt]
  split
  · exact ⟨_, _, rfl, rfl, by simpa only [respondHalted_eq] using h.afterHalted⟩
  · rcases decodeCommand_cases hp with ⟨-, e⟩ | ⟨-, -, e⟩ | ⟨-, -, -, i, e⟩ <;> rw [e]
    · exact ⟨_, _, rfl, rfl, by simpa only [raiseFault_eq] using h.afterFault _⟩
    · exact ⟨_, _, rfl, rfl, by simpa only [raiseFault_eq] using h.afterFault _⟩
    · exact h.after_exec i

/-- A reset finds the same BUF in both. -/
theorem State.SameToHost.cutBuf_eq (m : Nat) : cutBuf m s = cutBuf m t := by
  rw [cutBuf, cutBuf, ← h.flt, ← h.cmd]
  split
  · exact h.buf
  · split
    · rename_i addr len rest hd
      rw [← h.applyFault_eq]
      split
      · exact h.buf
      · rename_i hn
        exact (h.after_applyRange hn m).buf
    · exact h.buf

/-- A reset leaves them alike: both keystream flags are clear. -/
theorem State.SameToHost.after_takeReset (m : Nat) : (takeReset m s).SameToHost (takeReset m t) := by
  rw [takeReset, takeReset, h.cutBuf_eq m, h.bufTop]
  exact ⟨rfl, rfl, rfl, rfl, rfl, rfl, rfl, rfl, rfl, nofun, nofun, nofun⟩

/-- Both step to machines alike, or both wait. -/
theorem State.SameToHost.after_step :
    (∃ s' t', step s = .next s' ∧ step t = .next t' ∧ s'.SameToHost t') ∨
      (step s = .fault .awaitingCommand ∧ step t = .fault .awaitingCommand) := by
  rcases hr : s.rst with - | m
  · rcases hc : takeCommand s.cmd with - | ⟨hd, p, rest⟩
    · exact .inr ⟨step_of_no_command hr hc, step_of_no_command (h.rst ▸ hr) (h.cmd ▸ hc)⟩
    · rw [step_command hr hc, step_command (h.rst ▸ hr) (h.cmd ▸ hc)]
      exact .inl ((h.setCmd rest).after_runCommand (eq_of_takeCommand hc).2)
  · have hrt : t.rst = some m := h.rst ▸ hr
    exact .inl ⟨_, _, by simp only [step, hr], by simp only [step, hrt], h.after_takeReset m⟩

end

/-- Settles O41: both step to machines alike, or both wait, and a step has one outcome. -/
theorem unwrittenRegistersStayHidden : Obligations.UnwrittenRegistersStayHidden := by
  intro s t h
  rcases h.after_step with ⟨s', t', hs, ht, h'⟩ | ⟨hs, ht⟩
  · refine ⟨fun u e => ?_, fun e => ?_⟩
    · cases hs.symm.trans e
      exact ⟨t', ht, h'⟩
    · cases hs.symm.trans e
  · refine ⟨fun u e => ?_, fun _ => ht⟩
    cases hs.symm.trans e

/-! ## Responses -/

/-- A response header with legal fields and the payload words it announces (30_encoding.md R77 to R79). -/
structure IsResponse (r : Word32) (ws : List Word32) : Prop where
  status : r.extractLsb' 0 2 ≠ 3#2
  causeLe : (r.extractLsb' 4 4).toNat ≤ 5
  causeZero : r.extractLsb' 4 4 = 0#4 ↔ r.extractLsb' 0 2 = 0#2
  lenLe : (r.extractLsb' 8 5).toNat ≤ 16
  unused : r.extractLsb' 2 2 = 0#2 ∧ r.extractLsb' 13 3 = 0#3 ∧ r.extractLsb' 20 12 = 0#12
  payload : ws.length = ((r.extractLsb' 8 5).toNat + 3) / 4

/-- The core's headers are legal where their fields are. -/
theorem isResponse_responseHeader {status : Status} {cause : BitVec 4} {len : BitVec 5} (off : BitVec 4)
    {ws : List Word32} (hc : cause.toNat ≤ 5) (hz : cause = 0#4 ↔ status = .ok) (hl : len.toNat ≤ 16)
    (hw : ws.length = (len.toNat + 3) / 4) : IsResponse (responseHeader status cause len off) ws := by
  obtain ⟨hs, hu2, hcause, hlen, hu13, -, hu20, -⟩ := responseHeaderFields status cause len off
  refine ⟨?_, ?_, ?_, ?_, ⟨hu2, hu13, hu20⟩, ?_⟩
  · rw [hs]
    cases status <;> decide
  · rwa [hcause]
  · rw [hcause, hs, hz]
    cases status <;> decide
  · rwa [hlen]
  · rwa [hlen]

/-- `t` is `s` with one response more on RSP. -/
def State.AnsweredBy (s t : State) : Prop := ∃ r ws, t.rsp = s.rsp ++ r :: ws ∧ IsResponse r ws

theorem isResponse_okHeader : IsResponse okHeader [] :=
  isResponse_responseHeader 0#4 (by decide) (by decide) (by decide) rfl

theorem State.answeredBy_afterFault (s : State) (c : FaultCause) : s.AnsweredBy (s.afterFault c.code) := by
  rw [← raiseFault_eq]
  refine ⟨_, [], rfl, isResponse_responseHeader 0#4 c.code_bounds.2 ?_ (by decide) rfl⟩
  cases c <;> decide

/-- A core with the invariant has a cause to name while FLT = 1. -/
theorem State.Inv.answeredBy_afterHalted {s : State} (h : s.Inv) (hf : s.flt = true) : s.AnsweredBy s.afterHalted := by
  obtain ⟨hpos, hle⟩ := h.someCause hf
  rw [← respondHalted_eq]
  refine ⟨_, [], rfl, isResponse_responseHeader 0#4 hle ?_ (by decide) rfl⟩
  have hne : s.cause ≠ 0#4 := fun hc => by simp [hc] at hpos
  simp [hne]

/-- The response of a chunk announces the words its bytes take. -/
theorem isResponse_chunk (st : Block) {off len : Nat} (hend : off + len ≤ 16) :
    IsResponse (responseHeader .ok 0#4 (BitVec.ofNat 5 len) (BitVec.ofNat 4 off))
      (packBytes (chunkBytes st off len)) := by
  have hlen : (BitVec.ofNat 5 len).toNat = len := Nat.mod_eq_of_lt (by omega)
  refine isResponse_responseHeader _ (by decide) (by decide) (by omega) ?_
  rw [packBytes_length, chunkBytes_length, hlen, Nat.min_eq_left (by omega)]

/-- Every command is answered by one response. -/
theorem answeredBy_of_exec {i : Instr} {s t : State} (e : exec i s = .next t) : s.AnsweredBy t := by
  cases i with
  | setKey key => cases e; exact ⟨_, _, rfl, isResponse_okHeader⟩
  | setIv iv => cases e; exact ⟨_, _, rfl, isResponse_okHeader⟩
  | nextChunk n =>
    rcases exec_nextChunk n s with ⟨c, -, h⟩ | ⟨-, h⟩ <;> cases h.symm.trans e
    · exact s.answeredBy_afterFault c
    · rcases hx : takeChunk n.toNat s with ⟨off, len, s'⟩
      obtain ⟨-, hend, -⟩ := takeChunk_bounds hx
      obtain ⟨st, scr, pos, buf, rfl⟩ := State.streamWrite_takeChunk hx
      exact ⟨_, _, rfl, isResponse_chunk _ hend⟩
  | apply addr len =>
    rcases exec_apply addr len s with ⟨c, -, h⟩ | ⟨-, h⟩ <;> cases h.symm.trans e
    · exact s.answeredBy_afterFault c
    · obtain ⟨st, scr, pos, buf, hs⟩ := applyRange_frame addr.toNat len.toNat s
      rw [hs]
      exact ⟨_, _, rfl, isResponse_okHeader⟩

/-- A step with no reset pending takes the command at the head of CMD and answers it. -/
theorem State.Inv.answeredBy_of_step {s t : State} (h : s.Inv) (hr : s.rst = none) (e : step s = .next t) :
    ∃ hd p rest, takeCommand s.cmd = some (hd, p, rest) ∧ t.cmd = rest ∧ s.AnsweredBy t := by
  rcases step_cases e with ⟨m, hm, -⟩ | ⟨-, hd, p, rest, hc, hcase⟩
  · cases hr.symm.trans hm
  refine ⟨hd, p, rest, hc, ?_⟩
  have hs := h.setCmd rest
  rcases hcase with ⟨hf, rfl⟩ | ⟨-, -, rfl⟩ | ⟨-, -, rfl⟩ | ⟨-, i, -, hx⟩
  · exact ⟨rfl, hs.answeredBy_afterHalted hf⟩
  · exact ⟨rfl, (s.setCmd rest).answeredBy_afterFault .illegalOpcode⟩
  · exact ⟨rfl, (s.setCmd rest).answeredBy_afterFault .reservedBits⟩
  · obtain ⟨-, hcmd, -⟩ := exec_frame hx
    exact ⟨hcmd, answeredBy_of_exec (s := s.setCmd rest) hx⟩

/-- Settles O42: the command taken, and the response to it. -/
theorem oneResponsePerCommand : Obligations.OneResponsePerCommand := by
  intro s t h hr e
  obtain ⟨hd, p, rest, htake, hcmd, r, ws, hrsp, hresp⟩ := h.answeredBy_of_step hr e
  obtain ⟨hc, hp⟩ := eq_of_takeCommand htake
  obtain ⟨hu2, hu13, hu20⟩ := hresp.unused
  exact ⟨hd, p, rest, r, ws, hc, hp, hcmd, hrsp, hresp.status, hu2, hresp.causeLe, hresp.causeZero, hresp.lenLe, hu13,
    hu20, hresp.payload⟩

end Sys2Proof.Machine
end
